-- ==== Sys2Proof/Word.lean ====
section
/-!
DEFINITION. The word types of the core (rules R9, R14): every datum is a byte, every ROM or RAM address and the program
counter are 16 bits. All values are unsigned (R14).
-/

namespace Sys2Proof

/-- Register, immediate, stack entry and memory cell: `XLEN` = `IMMLEN` = 8 bits (R9). -/
abbrev Byte := BitVec 8

/-- Program counter and address operand: `PCLEN` = `ADDRLEN` = 16 bits (R9). -/
abbrev Word := BitVec 16

end Sys2Proof
end

