-- ==== Sys2Proof/Config.lean ====
section
/-!
DEFINITION. The parameters of the core (00_scope.md rules R9 to R13, 92_eei_decisions.md, U8 of
93_implementation_defined.md). They are inputs that are static during a run (R350), so they are plain data, and a claim
over every state is a claim over every configuration.
-/

namespace Sys2Proof

/-- The three operand types (R101). -/
inductive OperandType where
  | register
  | value
  | address
deriving DecidableEq, Repr

/-- An operand-type signature: the ordered operand types of one opcode variant (R18). -/
abbrev Signature := List OperandType

/-- One entry of the Syntax Table: an opcode byte bound to a (mnemonic, signature) pair (R110). Mnemonics are
case-sensitive strings (R110, R132). -/
structure TableRow where
  opcode : Byte
  mnemonic : String
  signature : Signature
deriving DecidableEq, Repr

/-- `SYNTAX_TABLE`: the partial map from opcode bytes to (mnemonic, signature), as its list of entries (R10, R110). -/
abbrev SyntaxTable := List TableRow

/-- `PC_WRAP`: what an increment of `pc` from 0xFFFF does (R27, R169, decision D3). -/
inductive PcWrap where
  /-- it gives 0x0000: this hardware's value -/
  | wrap
  /-- it raises `PcWrapError`: the conservative reading -/
  | fault
deriving DecidableEq, Repr

/-- `INC_ZERO_MODE`: where INC takes the zero flag from (U8, 90_conflicts.md C3). -/
inductive IncZeroMode where
  /-- the register index, as the source states it: this hardware's value -/
  | index
  /-- the incremented value: the alternative a doubting model may take -/
  | result
deriving DecidableEq, Repr

/-- The parameters of one core (R10, R11, R13). Log entry 1: they stand in `State` as data that no step changes. -/
structure Config where
  /-- `SYNTAX_TABLE` (R10) -/
  table : SyntaxTable
  /-- `RAM_SIZE`, legal from 1 to 65536 (R11) -/
  ramSize : Nat
  /-- `PC_WRAP` (R13) -/
  pcWrap : PcWrap
  /-- `JUMP_RAM_CHECK`: whether a JUMP target is bound-checked against `RAM_SIZE` (R13, R166) -/
  jumpRamCheck : Bool
  /-- `REG_RESET`: what reset puts into every general register (R13, R42) -/
  regReset : Byte
  /-- `INC_ZERO_MODE` (U8) -/
  incZeroMode : IncZeroMode
deriving DecidableEq, Repr

/-- `STACK_DEPTH`: 32 entries (R12, R35). -/
abbrev stackDepth : Nat := 32

/-- `ROM_SIZE`: 65536 bytes (R9). -/
abbrev romSize : Nat := 65536

end Sys2Proof
end

