-- ==== Sys2Proof/Syntax.lean ====
section
/-!
DEFINITION. The instructions: one constructor per row of spec/opcode_table.json, which are the 14 defined forms of R112.
Operand names follow R16: `rd` destination, `rs` source, `imm` the 8-bit value, `addr` the 16-bit address.
-/

namespace Sys2Proof

/-- A general register index, 0 to 7 (R20, R102). -/
abbrev Reg := Fin 8

/-- An operand after the operand phase (R101 to R104). -/
inductive Operand where
  | register (r : Reg)
  | value (v : Byte)
  | address (a : Word)
deriving DecidableEq, Repr

/-- The defined forms of the instruction set (R112), in the table's order. -/
inductive Instr where
  /-- `NOP` `[]` (R190) -/
  | nop
  /-- `JUMP` `[address]` (R191) -/
  | jump (addr : Word)
  /-- `PUSH` `[register]` (R212) -/
  | push (rs : Reg)
  /-- `POP` `[register]` (R213) -/
  | pop (rd : Reg)
  /-- `CLEAR` `[register]` (R231) -/
  | clear (rd : Reg)
  /-- `INC` `[register]` (R232) -/
  | inc (rd : Reg)
  /-- `HALT` `[]` (R194) -/
  | halt
  /-- `ADD` `[register, register]` (R233) -/
  | addReg (rd rs : Reg)
  /-- `ADD` `[register, value]` (R234) -/
  | addImm (rd : Reg) (imm : Byte)
  /-- `MOV` `[register, register]` (R250) -/
  | movReg (rd rs : Reg)
  /-- `MOV` `[register, value]` (R251) -/
  | movImm (rd : Reg) (imm : Byte)
  /-- `LPM` `[register, address]` (R270) -/
  | lpm (rd : Reg) (addr : Word)
  /-- `LOAD` `[register, address]` (R271) -/
  | load (rd : Reg) (addr : Word)
  /-- `STORE` `[address, register]` (R272) -/
  | store (addr : Word) (rs : Reg)
deriving DecidableEq, Repr

end Sys2Proof
end

