-- ==== Sys2Proof/WellFormed.lean ====
section
/-!
DEFINITION. Which configurations and which instructions are well-formed. A register index is in range by its type (R102); what remains is
the bound on the address operands that are checked against `RAM_SIZE` (R117, R166).
-/

namespace Sys2Proof

/-- Every opcode byte appears at most once in the table: an opcode byte stands under at most one mnemonic, and under a
mnemonic it is a key (R110, R118). -/
abbrev SyntaxTable.wf (t : SyntaxTable) : Prop := (t.map TableRow.opcode).Nodup

/-- A configuration a run may start with: a well-formed table (R118) and a legal `RAM_SIZE` (R11). -/
abbrev Config.wf (p : Config) : Prop := SyntaxTable.wf p.table ∧ 1 ≤ p.ramSize ∧ p.ramSize ≤ 65536

/-- An instruction a core with parameters `p` accepts: LOAD and STORE addresses lie in RAM (R117), and so does a JUMP
target where `JUMP_RAM_CHECK` asks for it (R166). -/
def Instr.wf (p : Config) : Instr → Bool
  | .nop => true
  | .jump a => !p.jumpRamCheck || decide (a.toNat < p.ramSize)
  | .push _ => true
  | .pop _ => true
  | .clear _ => true
  | .inc _ => true
  | .halt => true
  | .addReg _ _ => true
  | .addImm _ _ => true
  | .movReg _ _ => true
  | .movImm _ _ => true
  | .lpm _ _ => true
  | .load _ a => decide (a.toNat < p.ramSize)
  | .store a _ => decide (a.toNat < p.ramSize)

end Sys2Proof
end

