-- ==== Sys2Proof/Decode.lean ====
section
/-!
DEFINITION. The decoder and the encoder (30_encoding.md sections 1 to 3, 40_cycle.md rules R163 to R167). An instruction is a list of
bytes, the opcode byte first; offset `k` of the list is the byte at `ipc + k`. The decoder is total: it answers an
instruction or a rejection by name with the offset of the last byte it read (R171).
-/

namespace Sys2Proof

/-! ## The Syntax Table -/

/-- `ST[op]`: the entry of opcode byte `op`, if there is one (R111). -/
def lookupOpcode (t : SyntaxTable) (op : Byte) : Option TableRow :=
  t.find? fun r => r.opcode == op

/-- The reference Syntax Table (R113). Log entry 2: the byte values are the spec's own choice (decision D1). -/
def referenceTable : SyntaxTable :=
  [ ⟨0x00, "NOP", []⟩,
    ⟨0x01, "JUMP", [.address]⟩,
    ⟨0x02, "PUSH", [.register]⟩,
    ⟨0x03, "POP", [.register]⟩,
    ⟨0x04, "CLEAR", [.register]⟩,
    ⟨0x05, "INC", [.register]⟩,
    ⟨0x06, "HALT", []⟩,
    ⟨0x07, "ADD", [.register, .register]⟩,
    ⟨0x08, "ADD", [.register, .value]⟩,
    ⟨0x09, "MOV", [.register, .register]⟩,
    ⟨0x0A, "MOV", [.register, .value]⟩,
    ⟨0x0B, "LPM", [.register, .address]⟩,
    ⟨0x0C, "LOAD", [.register, .address]⟩,
    ⟨0x0D, "STORE", [.address, .register]⟩ ]

/-- The configuration of `State.reset`: the reference table, and this hardware's value of every parameter that has one
(R13, 95_test_vectors.md's header). Log entry 3: `RAM_SIZE` is OPEN in the spec, and 512 is a DESIGN CHOICE. -/
def referenceConfig : Config where
  table := referenceTable
  ramSize := 512
  pcWrap := .wrap
  jumpRamCheck := false
  regReset := 0x00
  incZeroMode := .index

/-- How many slots an operand takes: two for an address, one for the others (R163). -/
def OperandType.slots : OperandType → Nat
  | .register => 1
  | .value => 1
  | .address => 2

/-- The operand bytes of a signature; an instruction has one byte more (R105). -/
def signatureSlots (sig : Signature) : Nat := (sig.map OperandType.slots).sum

/-! ## Operands and bytes -/

/-- A 16-bit address from its two bytes (R104): `hi * 256 + lo`. -/
def addressOfBytes (lo hi : Byte) : Word := hi ++ lo

/-- Bits 7 to 0 of an address, the byte that comes first in the stream (R68, R107). -/
def loByte (a : Word) : Byte := a.extractLsb' 0 8

/-- Bits 15 to 8 of an address, the byte that comes second in the stream (R68, R107). -/
def hiByte (a : Word) : Byte := a.extractLsb' 8 8

/-- The type of an operand (R101). -/
def Operand.type : Operand → OperandType
  | .register _ => .register
  | .value _ => .value
  | .address _ => .address

/-- The slot bytes of an operand (R102 to R104). -/
def Operand.bytes : Operand → List Byte
  | .register r => [BitVec.ofNat 8 r.val]
  | .value v => [v]
  | .address a => [loByte a, hiByte a]

/-- The mnemonic of a form (R112). -/
def Instr.mnemonic : Instr → String
  | .nop => "NOP"
  | .jump _ => "JUMP"
  | .push _ => "PUSH"
  | .pop _ => "POP"
  | .clear _ => "CLEAR"
  | .inc _ => "INC"
  | .halt => "HALT"
  | .addReg _ _ => "ADD"
  | .addImm _ _ => "ADD"
  | .movReg _ _ => "MOV"
  | .movImm _ _ => "MOV"
  | .lpm _ _ => "LPM"
  | .load _ _ => "LOAD"
  | .store _ _ => "STORE"

/-- The operands of an instruction, in signature order (R106, R112). -/
def Instr.operands : Instr → List Operand
  | .nop => []
  | .jump a => [.address a]
  | .push rs => [.register rs]
  | .pop rd => [.register rd]
  | .clear rd => [.register rd]
  | .inc rd => [.register rd]
  | .halt => []
  | .addReg rd rs => [.register rd, .register rs]
  | .addImm rd imm => [.register rd, .value imm]
  | .movReg rd rs => [.register rd, .register rs]
  | .movImm rd imm => [.register rd, .value imm]
  | .lpm rd a => [.register rd, .address a]
  | .load rd a => [.register rd, .address a]
  | .store a rs => [.address a, .register rs]

/-- The signature of an instruction's form (R112). -/
def Instr.signature (i : Instr) : Signature := i.operands.map Operand.type

/-- The length of an instruction in bytes (R105, R107). -/
def Instr.length (i : Instr) : Nat := 1 + signatureSlots i.signature

/-- The defined form with this mnemonic and these operands, if there is one (R112, R167). The mnemonic matches exactly. -/
def instrOf (mnemonic : String) (ops : List Operand) : Option Instr :=
  match mnemonic, ops with
  | "NOP", [] => some .nop
  | "JUMP", [.address a] => some (.jump a)
  | "PUSH", [.register rs] => some (.push rs)
  | "POP", [.register rd] => some (.pop rd)
  | "CLEAR", [.register rd] => some (.clear rd)
  | "INC", [.register rd] => some (.inc rd)
  | "HALT", [] => some .halt
  | "ADD", [.register rd, .register rs] => some (.addReg rd rs)
  | "ADD", [.register rd, .value imm] => some (.addImm rd imm)
  | "MOV", [.register rd, .register rs] => some (.movReg rd rs)
  | "MOV", [.register rd, .value imm] => some (.movImm rd imm)
  | "LPM", [.register rd, .address a] => some (.lpm rd a)
  | "LOAD", [.register rd, .address a] => some (.load rd a)
  | "STORE", [.address a, .register rs] => some (.store a rs)
  | _, _ => none

/-! ## The decoder -/

/-- Why the decoder gives no instruction. -/
inductive DecodeReject where
  /-- `ST[op] = none` (R114): the step raises `DecodeError` -/
  | unknownOpcode
  /-- a register slot byte of 8 or more (R102), or a checked address at or above `RAM_SIZE` (R117): `OperandRangeError` -/
  | operandRange
  /-- the entry is no defined form (R114, R167): `UnimplementedOpcodeError` -/
  | noSemantics
  /-- the next byte would lie past 0xFFFF, which happens under `PC_WRAP = fault` only (R169): `PcWrapError` -/
  | bytesExhausted
deriving DecidableEq, Repr

/-- What decoding a list of bytes gives: an instruction, or the reason there is none with the offset of the last byte read. -/
inductive Decoded where
  | instr (i : Instr)
  | reject (why : DecodeReject) (last : Nat)
deriving DecidableEq, Repr

/-- The bound an entry's address operands are checked against, if they are checked: `RAMFORMS` of R170. -/
def addressBound (p : Config) (mnemonic : String) (sig : Signature) : Option Nat :=
  if (mnemonic = "LOAD" ∧ sig = [.register, .address])
      ∨ (mnemonic = "STORE" ∧ sig = [.address, .register])
      ∨ (p.jumpRamCheck = true ∧ mnemonic = "JUMP" ∧ sig = [.address]) then
    some p.ramSize
  else
    none

/-- Whether an address operand passes the check of R166. -/
def addressInBound (bound : Option Nat) (a : Word) : Bool :=
  match bound with
  | none => true
  | some n => decide (a.toNat < n)

/-- The operand phase (R164 to R166): one slot at a time, in order, each checked as soon as it is read. `last` is the
offset of the last byte read so far. -/
def loadOperands (bound : Option Nat) : Signature → List Byte → Nat → Except (DecodeReject × Nat) (List Operand)
  | [], _, _ => .ok []
  | .register :: _, [], last => .error (.bytesExhausted, last)
  | .register :: sig, b :: bytes, last =>
    if h : b.toNat < 8 then
      (loadOperands bound sig bytes (last + 1)).map (Operand.register ⟨b.toNat, h⟩ :: ·)
    else
      .error (.operandRange, last + 1)
  | .value :: _, [], last => .error (.bytesExhausted, last)
  | .value :: sig, b :: bytes, last => (loadOperands bound sig bytes (last + 1)).map (Operand.value b :: ·)
  | .address :: _, [], last => .error (.bytesExhausted, last)
  | .address :: _, [_], last => .error (.bytesExhausted, last + 1)
  | .address :: sig, lo :: hi :: bytes, last =>
    if addressInBound bound (addressOfBytes lo hi) then
      (loadOperands bound sig bytes (last + 2)).map (Operand.address (addressOfBytes lo hi) :: ·)
    else
      .error (.operandRange, last + 2)

/-- The decoder (R114, R163 to R167): look the opcode byte up, load and check the operands, then select the form. -/
def decode (p : Config) : List Byte → Decoded
  | [] => .reject .bytesExhausted 0
  | op :: bytes =>
    match lookupOpcode p.table op with
    | none => .reject .unknownOpcode 0
    | some row =>
      match loadOperands (addressBound p row.mnemonic row.signature) row.signature bytes 0 with
      | .error (why, last) => .reject why last
      | .ok ops =>
        match instrOf row.mnemonic ops with
        | some i => .instr i
        | none => .reject .noSemantics (signatureSlots row.signature)

/-- How many bytes the entry of `op` makes the core read: the opcode byte, and the slots if there is an entry (R105, R114). -/
def entryLength (p : Config) (op : Byte) : Nat :=
  match lookupOpcode p.table op with
  | none => 1
  | some row => 1 + signatureSlots row.signature

/-! ## The encoder -/

/-- The bytes of an instruction under opcode byte `op`: the opcode, then every operand's slots in order (R106). -/
def encodeWith (op : Byte) (i : Instr) : List Byte := op :: i.operands.flatMap Operand.bytes

/-- The reference opcode of a form (R113). -/
def referenceOpcode : Instr → Byte
  | .nop => 0x00
  | .jump _ => 0x01
  | .push _ => 0x02
  | .pop _ => 0x03
  | .clear _ => 0x04
  | .inc _ => 0x05
  | .halt => 0x06
  | .addReg _ _ => 0x07
  | .addImm _ _ => 0x08
  | .movReg _ _ => 0x09
  | .movImm _ _ => 0x0A
  | .lpm _ _ => 0x0B
  | .load _ _ => 0x0C
  | .store _ _ => 0x0D

/-- The bytes of an instruction under the reference table (R107, R113). -/
def encode (i : Instr) : List Byte := encodeWith (referenceOpcode i) i

/-! ## The opcode table's numbering -/

/-- Byte `k` of an instruction whose bits are `w`, bit 0 the least significant bit of the first byte. -/
def tableByte (nbits w k : Nat) : Byte := BitVec.ofNat 8 (w % 2 ^ nbits / 256 ^ k)

/-- The four bytes (the longest defined form, R107) of an instruction numbered as spec/opcode_table.json numbers it. -/
def tableBytes (nbits w : Nat) : List Byte :=
  [tableByte nbits w 0, tableByte nbits w 1, tableByte nbits w 2, tableByte nbits w 3]

/-- The instruction the decoder reads from an instruction whose bits are `w`, under the reference configuration. -/
def decodeTableWord (nbits w : Nat) : Option Instr :=
  match decode referenceConfig (tableBytes nbits w) with
  | .instr i => some i
  | .reject _ _ => none

end Sys2Proof
end

