-- ==== Sys2Proof/Machine/Memory.lean ====
section
/-!
DEFINITION. Byte memories (20_memory.md): ROM and RAM are both lists of (address, byte) cells in one canonical form. The cells stand at
strictly rising addresses and no cell holds what an unlisted address reads as, so equal memories are equal data.
-/

namespace Sys2Proof.Machine

/-- The contents of one address space, as its listed cells. -/
abbrev Memory := List Host.Cell

/-- What an unlisted address reads as: 0x00. For ROM the image is zero-initialised (R139, log entry 5). For RAM this is a
DESIGN CHOICE about `RAM_INIT` in `State.reset` only (R66, decision D7, log entry 4): any other contents are listed cells. -/
def unlistedByte : Byte := 0x00

/-- The canonical form. -/
abbrev Memory.wf (m : Memory) : Prop :=
  m.Pairwise (fun p q => p.1 < q.1) ∧ ∀ cell ∈ m, cell.2 ≠ unlistedByte

/-- Every listed cell lies below `n`. -/
abbrev Memory.below (n : Nat) (m : Memory) : Prop := ∀ cell ∈ m, cell.1 < n

/-- The byte at address `a` (R65, R66). -/
def Memory.read : Memory → Nat → Byte
  | [], _ => unlistedByte
  | (k, b) :: m, a => if a = k then b else Memory.read m a

/-- A cell in front of a memory, left out when it holds what an unlisted address reads as. -/
def Memory.cons (a : Nat) (v : Byte) (m : Memory) : Memory :=
  if v = unlistedByte then m else (a, v) :: m

/-- The memory after byte `v` is written at address `a`; no other byte changes (R67). Keeps the canonical form. -/
def Memory.write : Memory → Nat → Byte → Memory
  | [], a, v => Memory.cons a v []
  | (k, b) :: m, a, v =>
    if a < k then Memory.cons a v ((k, b) :: m)
    else if a = k then Memory.cons a v m
    else (k, b) :: Memory.write m a v

/-- The memory after the bytes are written in order at successive addresses from `a` on. -/
def Memory.writeBytes (m : Memory) (a : Nat) : List Byte → Memory
  | [] => m
  | b :: bytes => Memory.writeBytes (Memory.write m a b) (a + 1) bytes

end Sys2Proof.Machine
end

