-- ==== Sys2Proof/Machine/State.lean ====
section
/-!
DEFINITION. The architectural state of the core (10_state.md, rule R43), the six execution errors (R300), the reasons a step is not
taken, and the state right after reset (R42).
-/

namespace Sys2Proof.Machine

/-- The execution errors of the core (R300). Raising one is an error entry (R303): a next state with the latch set. -/
inductive ErrKind where
  /-- `ST[op] = none` (R163) -/
  | decodeError
  /-- a register slot byte of 8 or more, or a LOAD or STORE address at or above `RAM_SIZE` (R164, R166) -/
  | operandRange
  /-- the entry is no defined form (R167) -/
  | unimplementedOpcode
  /-- PUSH with `sp = STACK_DEPTH` (R210) -/
  | stackOverflow
  /-- POP with `sp = 0` (R211) -/
  | stackUnderflow
  /-- an increment of `pc` from 0xFFFF under `PC_WRAP = fault` (R169) -/
  | pcWrap
deriving DecidableEq, Repr

/-- The error latch's record (R39, R301). Log entry 15: the code is a function of the kind (`ErrKind.code`), so it is not
stored a second time. -/
structure ErrorRecord where
  /-- the kind of the error -/
  kind : ErrKind
  /-- the ROM address of the opcode byte of the instruction that failed -/
  ipc : Word
  /-- that opcode byte -/
  opcode : Byte
deriving DecidableEq, Repr

/-- The whole state of the core (R43), with the parameters and the ROM image of R43 as data that no step changes (log entry 1). -/
structure State where
  /-- the parameters of the core, static during a run (R13, R40, R350) -/
  cfg : Config
  /-- program memory, 65536 bytes, never written by execution (R60, R61) -/
  rom : Memory
  /-- data memory, `RAM_SIZE` bytes (R60) -/
  ram : Memory
  /-- the general registers `x[0..7]` (R20) -/
  x : Vector Byte 8
  /-- the program counter (R23) -/
  pc : Word
  /-- the `zero` flag (R29) -/
  z : Bool
  /-- the `carry` flag (R29) -/
  c : Bool
  /-- the `halt` flag, which is the run state (R29, R33) -/
  h : Bool
  /-- the stack pointer, 0 to `STACK_DEPTH` inclusive: the number of entries in use (R36) -/
  sp : Fin (stackDepth + 1)
  /-- the stack entries `stk[0..31]`, in no address space (R35, R64) -/
  stk : Vector Byte stackDepth
  /-- the error latch (R39) -/
  err : Option ErrorRecord
deriving DecidableEq, Repr

/-- Reasons a step stops with a fault. There are none: every execution error of this core is an error entry that the spec
describes (R303), a next state with `err` set (log entry 8). Raised by nobody, and safe. -/
inductive Fault where
deriving DecidableEq, Repr

/-- Reasons no step is taken. -/
inductive Refusal where
  /-- An instruction that has no meaning in this model yet: raised by an arm of `exec` only. No arm does. Safe. -/
  | notModelled (mnemonic : String)
  /-- The core is Halted and takes no step (R160; U14: "refuse any step of a halted or errored core"): raised by `step`.
  Safe (log entry 9). -/
  | halted
  /-- The core has stopped on a fatal error and takes no step (R160, R304, U14): raised by `step`. Safe (log entry 9). -/
  | stopped
deriving DecidableEq, Repr

/-- The machine right after reset (R42, R340, R342), with the reference configuration. ROM and RAM list nothing: the image
and the buffer are the host's to supply (R344; log entries 4, 5, 14). Log entry 6: the stack entries, which the spec leaves unspecified, hold 0x00
(DESIGN CHOICE, unsafe). -/
def State.reset : State where
  cfg := referenceConfig
  rom := []
  ram := []
  x := Vector.replicate 8 referenceConfig.regReset
  pc := 0x0000
  z := false
  c := false
  h := false
  sp := 0
  stk := Vector.replicate stackDepth 0x00
  err := none

end Sys2Proof.Machine
end

