-- ==== Sys2Proof/Machine/Ops.lean ====
section
/-!
DEFINITION. The named operations over registers, memory and the stack engine, the increments of `pc`, and error entry (42_stack.md R210,
R211; 40_cycle.md R168, R169; 60_exceptions.md R303). There is no return from an error (R304): only reset clears it.
-/

namespace Sys2Proof.Machine

/-! ## Registers, program counter, run state -/

/-- `x[r]` (R15, R21). -/
def State.reg (s : State) (r : Reg) : Byte := s.x[r.val]

/-- `x[r] <- v` (R15, R21). -/
def State.setReg (s : State) (r : Reg) (v : Byte) : State := { s with x := s.x.set r.val v }

/-- `pc <- a` (R15). -/
def State.setPc (s : State) (a : Word) : State := { s with pc := a }

/-- `H <- 1` (R194). -/
def State.setHalt (s : State) : State := { s with h := true }

/-! ## Memory -/

/-- `MemRead(ROM, a, 1)`: every 16-bit address is readable (R62, R65). -/
def State.romRead (s : State) (a : Word) : Byte := s.rom.read a.toNat

/-- `MemRead(RAM, a, 1)`, for `a < RAM_SIZE` (R66). -/
def State.ramRead (s : State) (a : Word) : Byte := s.ram.read a.toNat

/-- `MemWrite(RAM, a, 1, v)`, for `a < RAM_SIZE` (R67). -/
def State.ramWrite (s : State) (a : Word) (v : Byte) : State := { s with ram := s.ram.write a.toNat v }

/-! ## The stack engine -/

/-- `push(v)`: none where it overflows, and then nothing is written (R210). -/
def State.stackPush (s : State) (v : Byte) : Option State :=
  if h : s.sp.val < stackDepth then
    some { s with stk := s.stk.set s.sp.val v, sp := ⟨s.sp.val + 1, Nat.succ_lt_succ h⟩ }
  else
    none

/-- `pop()`: the value and the state after it, none where it underflows; the entry read is not cleared (R211). -/
def State.stackPop (s : State) : Option (Byte × State) :=
  if h : 0 < s.sp.val then
    some (s.stk[s.sp.val - 1], { s with sp := ⟨s.sp.val - 1, Nat.lt_of_le_of_lt (Nat.sub_le _ _) s.sp.isLt⟩ })
  else
    none

/-! ## Errors -/

/-- The numeric code of an error kind, 1 to 6 (R300). -/
def ErrKind.code : ErrKind → BitVec 3
  | .decodeError => 1
  | .operandRange => 2
  | .unimplementedOpcode => 3
  | .stackOverflow => 4
  | .stackUnderflow => 5
  | .pcWrap => 6

/-- Error entry (R303): the latch takes the kind, the instruction's address and its opcode byte, `pc` is left at `pcLeft`, and
nothing else changes. `s.pc` is the address of the instruction (`ipc`, R162), so its opcode byte is the ROM byte there (log entry 10). -/
def State.enterError (s : State) (k : ErrKind) (pcLeft : Word) : State :=
  { s with pc := pcLeft, err := some ⟨k, s.pc, s.romRead s.pc⟩ }

/-- `raise k` (R15, R303): the step ends with the error entered. -/
def raise (k : ErrKind) (pcLeft : Word) (s : State) : Host.Outcome State Fault Refusal :=
  .next (s.enterError k pcLeft)

/-! ## Increments of the program counter -/

/-- Whether `k` increments of `pc` succeed: always under `PC_WRAP = wrap`, and under `fault` where none starts from 0xFFFF (R169). -/
def State.pcFits (s : State) (k : Nat) : Bool :=
  s.cfg.pcWrap == .wrap || decide (s.pc.toNat + k < romSize)

/-- The end of an `n`-byte instruction that advances (R168): `pc` moves past it, modulo 65536, or the final increment
raises `PcWrapError` after the instruction's writes, with `pc` at 0xFFFF (R169, R171). -/
def advance (n : Nat) (s : State) : Host.Outcome State Fault Refusal :=
  if s.pcFits n then .next (s.setPc (s.pc + BitVec.ofNat 16 n)) else raise .pcWrap 0xFFFF s

end Sys2Proof.Machine
end

