-- ==== Sys2Proof/Machine/Flags.lean ====
section
/-!
DEFINITION. The ALU primitive and every flag computation of the ISA (10_state.md R31, 43_alu.md R230 to R235). No instruction writes a flag
that its rule does not name (R175).
-/

namespace Sys2Proof.Machine

/-- `add8(a, b)`: the sum computed in a wider domain, its residue modulo 256, and whether it exceeds 255 (R230). -/
def add8 (a b : Byte) : Byte × Bool :=
  let sum := a.toNat + b.toNat
  (BitVec.ofNat 8 sum, decide (255 < sum))

/-- The `zero` flag of a value: whether it is 0 (R233, R234, R271). -/
def isZero (v : Byte) : Bool := decide (v = 0)

/-- The `zero` flag INC writes: taken from the register INDEX (R232, 90_conflicts.md C3), or from the result where
`INC_ZERO_MODE` says so (U8, log entry 13). -/
def incZero (mode : IncZeroMode) (rd : Reg) (result : Byte) : Bool :=
  match mode with
  | .index => decide (rd = 0)
  | .result => isZero result

/-- `Z <- b`. -/
def State.setZ (s : State) (b : Bool) : State := { s with z := b }

/-- `C <- b`. -/
def State.setC (s : State) (b : Bool) : State := { s with c := b }

/-- The write-back of an ADD (R233, R234): the sum to `rd`, `Z` from the sum, `C` from the carry out. -/
def State.writeSum (s : State) (rd : Reg) (sum : Byte × Bool) : State :=
  ((s.setReg rd sum.1).setZ (isZero sum.1)).setC sum.2

end Sys2Proof.Machine
end

