-- ==== Sys2Proof/Machine/Operands.lean ====
section
/-!
DEFINITION. The operand phase as a meaning sees it (40_cycle.md R164 to R166, R169). The operand forms are a register, an 8-bit value, a ROM
address and a RAM address; only the last is checked when it is used. A meaning starts with `pc` at the instruction's opcode
byte and makes the checks of the operand phase again, so that it follows the spec in every state and not only after a
decode that has made them (log entry 10).
-/

namespace Sys2Proof.Machine

/-- The operand bytes up to offset `k` are reached by `k` increments of `pc`, the first of which from 0xFFFF raises
`PcWrapError` under `PC_WRAP = fault`, before any write (R169). -/
def afterOperands (k : Nat) (s : State) (body : Host.Outcome State Fault Refusal) :
    Host.Outcome State Fault Refusal :=
  if s.pcFits k then body else raise .pcWrap 0xFFFF s

/-- A RAM address operand whose high byte stands at offset `k`: `OperandRangeError` where it is not below `RAM_SIZE`, with `pc` at that byte (R63, R166). -/
def inRam (addr : Word) (k : Nat) (s : State) (body : Host.Outcome State Fault Refusal) :
    Host.Outcome State Fault Refusal :=
  if addr.toNat < s.cfg.ramSize then body else raise .operandRange (s.pc + BitVec.ofNat 16 k) s

/-- A jump target whose high byte stands at offset `k`: checked like a RAM address only where `JUMP_RAM_CHECK` asks for it (R166). -/
def jumpTarget (addr : Word) (k : Nat) (s : State) (body : Host.Outcome State Fault Refusal) :
    Host.Outcome State Fault Refusal :=
  if s.cfg.jumpRamCheck then inRam addr k s body else body

end Sys2Proof.Machine
end

