-- ==== Sys2Proof/Machine/Alu.lean ====
section
/-!
DEFINITION. The ALU instructions CLEAR, INC and the two forms of ADD (43_alu.md). Every operand is read before the register is written (R347).
-/

namespace Sys2Proof.Machine

/-- CLEAR `rd` (R231): `x[rd] <- 0x00`, `Z <- 1`; `C` is unchanged. -/
def execClear (rd : Reg) (s : State) : Host.Outcome State Fault Refusal :=
  afterOperands 1 s (advance 2 ((s.setReg rd 0x00).setZ true))

/-- INC `rd` (R232): `add8(x[rd], 1)`, with `Z` from the register index as the source states it. -/
def execInc (rd : Reg) (s : State) : Host.Outcome State Fault Refusal :=
  let sum := add8 (s.reg rd) 1
  afterOperands 1 s
    (advance 2 (((s.setReg rd sum.1).setZ (incZero s.cfg.incZeroMode rd sum.1)).setC sum.2))

/-- ADD `rd, rs` (R233). -/
def execAddReg (rd rs : Reg) (s : State) : Host.Outcome State Fault Refusal :=
  afterOperands 2 s (advance 3 (s.writeSum rd (add8 (s.reg rd) (s.reg rs))))

/-- ADD `rd, imm8` (R234). -/
def execAddImm (rd : Reg) (imm : Byte) (s : State) : Host.Outcome State Fault Refusal :=
  afterOperands 2 s (advance 3 (s.writeSum rd (add8 (s.reg rd) imm)))

end Sys2Proof.Machine
end

