-- ==== Sys2Proof/Machine/Control.lean ====
section
/-!
DEFINITION. The control instructions NOP, JUMP and HALT (41_control.md).
-/

namespace Sys2Proof.Machine

/-- NOP (R190): no state change but the advance. -/
def execNop (s : State) : Host.Outcome State Fault Refusal := advance 1 s

/-- JUMP `addr` (R191): `pc <- addr`, with no advance. -/
def execJump (addr : Word) (s : State) : Host.Outcome State Fault Refusal :=
  afterOperands 2 s (jumpTarget addr 2 s (.next (s.setPc addr)))

/-- HALT (R194): `H <- 1`, with no advance, so `pc` keeps the address of the HALT. -/
def execHalt (s : State) : Host.Outcome State Fault Refusal := .next s.setHalt

end Sys2Proof.Machine
end

