-- ==== Sys2Proof/Machine/MemoryAccess.lean ====
section
/-!
DEFINITION. The memory access instructions LPM, LOAD and STORE (45_memory_access.md). The only addressing mode is absolute (R109).
-/

namespace Sys2Proof.Machine

/-- LPM `rd, addr` (R270): the ROM byte, whatever the address; no flag is written. -/
def execLpm (rd : Reg) (addr : Word) (s : State) : Host.Outcome State Fault Refusal :=
  afterOperands 3 s (advance 4 (s.setReg rd (s.romRead addr)))

/-- LOAD `rd, addr` (R271): the RAM byte, and `Z` from it; the address is checked at the fourth byte. -/
def execLoad (rd : Reg) (addr : Word) (s : State) : Host.Outcome State Fault Refusal :=
  afterOperands 3 s (inRam addr 3 s
    (advance 4 ((s.setReg rd (s.ramRead addr)).setZ (isZero (s.ramRead addr)))))

/-- STORE `addr, rs` (R272): the address is checked at the third byte, before the register slot is read. -/
def execStore (addr : Word) (rs : Reg) (s : State) : Host.Outcome State Fault Refusal :=
  afterOperands 2 s (inRam addr 2 s (afterOperands 3 s (advance 4 (s.ramWrite addr (s.reg rs)))))

end Sys2Proof.Machine
end

