-- ==== Sys2Proof/Machine/Move.lean ====
section
/-!
DEFINITION. The register moves (44_move.md): no flag is written.
-/

namespace Sys2Proof.Machine

/-- MOV `rd, rs` (R250). -/
def execMovReg (rd rs : Reg) (s : State) : Host.Outcome State Fault Refusal :=
  afterOperands 2 s (advance 3 (s.setReg rd (s.reg rs)))

/-- MOV `rd, imm8` (R251). -/
def execMovImm (rd : Reg) (imm : Byte) (s : State) : Host.Outcome State Fault Refusal :=
  afterOperands 2 s (advance 3 (s.setReg rd imm))

end Sys2Proof.Machine
end

