-- ==== Sys2Proof/Machine/Stack.lean ====
section
/-!
DEFINITION. The stack instructions PUSH and POP (42_stack.md). An overflow or underflow leaves `pc` at the register slot (R171).
-/

namespace Sys2Proof.Machine

/-- PUSH `rs` (R212): `push(x[rs])`, or `StackOverflow` where the stack is full. -/
def execPush (rs : Reg) (s : State) : Host.Outcome State Fault Refusal :=
  afterOperands 1 s <|
    match s.stackPush (s.reg rs) with
    | some t => advance 2 t
    | none => raise .stackOverflow (s.pc + 1) s

/-- POP `rd` (R213): `x[rd] <- pop()`, or `StackUnderflow` where the stack is empty; no flag is written. -/
def execPop (rd : Reg) (s : State) : Host.Outcome State Fault Refusal :=
  afterOperands 1 s <|
    match s.stackPop with
    | some (v, t) => advance 2 (t.setReg rd v)
    | none => raise .stackUnderflow (s.pc + 1) s

end Sys2Proof.Machine
end

