-- ==== Sys2Proof/Machine/Dispatch.lean ====
section
/-!
DEFINITION. Dispatch (40_cycle.md R167): the meaning of every defined form, one arm per constructor of `Instr`.
-/

namespace Sys2Proof.Machine

/-- The execute phase and the advance of the decoded form (R167, R168), from a state whose `pc` is at the opcode byte. -/
def exec (i : Instr) (s : State) : Host.Outcome State Fault Refusal :=
  match i with
  | .nop => Sys2Proof.Machine.execNop s
  | .jump addr => Sys2Proof.Machine.execJump addr s
  | .push rs => Sys2Proof.Machine.execPush rs s
  | .pop rd => Sys2Proof.Machine.execPop rd s
  | .clear rd => Sys2Proof.Machine.execClear rd s
  | .inc rd => Sys2Proof.Machine.execInc rd s
  | .halt => Sys2Proof.Machine.execHalt s
  | .addReg rd rs => Sys2Proof.Machine.execAddReg rd rs s
  | .addImm rd imm => Sys2Proof.Machine.execAddImm rd imm s
  | .movReg rd rs => Sys2Proof.Machine.execMovReg rd rs s
  | .movImm rd imm => Sys2Proof.Machine.execMovImm rd imm s
  | .lpm rd addr => Sys2Proof.Machine.execLpm rd addr s
  | .load rd addr => Sys2Proof.Machine.execLoad rd addr s
  | .store addr rs => Sys2Proof.Machine.execStore addr rs s

end Sys2Proof.Machine
end

