-- ==== Sys2Proof/Machine/Fetch.lean ====
section
/-!
DEFINITION. When a step is taken and what it fetches (40_cycle.md R160, R162 to R166): the bytes at `pc`, the decode of them, and the error a
rejection raises.
-/

namespace Sys2Proof.Machine

/-- Why no step is taken, if none is: a step is enabled exactly when `H = 0` and `err = none` (R160). -/
def State.stopReason (s : State) : Option Refusal :=
  if s.h then some .halted else if s.err.isSome then some .stopped else none

/-- The ROM bytes read by an opcode fetch at `a` and the increments after it, at most `n` of them: past 0xFFFF they go on at
0x0000 under `PC_WRAP = wrap`, and end there under `fault` (R164, R169). -/
def State.fetchBytes (s : State) : Nat → Word → List Byte
  | 0, _ => []
  | n + 1, a =>
    s.romRead a ::
      if a = 0xFFFF ∧ s.cfg.pcWrap = .fault then [] else s.fetchBytes n (a + 1)

/-- The bytes of the instruction at `pc`: as many as the entry of its opcode byte asks for (R105, R163). -/
def State.instrBytes (s : State) : List Byte :=
  s.fetchBytes (entryLength s.cfg (s.romRead s.pc)) s.pc

/-- Fetch, decode and operand load (R162 to R166). -/
def State.decodeNext (s : State) : Decoded := decode s.cfg s.instrBytes

/-- The execution error a rejection of the decoder is (R114, R164, R166, R167, R169). -/
def DecodeReject.errKind : DecodeReject → ErrKind
  | .unknownOpcode => .decodeError
  | .operandRange => .operandRange
  | .noSemantics => .unimplementedOpcode
  | .bytesExhausted => .pcWrap

/-- The error entry of a rejection: `pc` is left at the last byte read (R171). -/
def raiseReject (why : DecodeReject) (last : Nat) (s : State) : Host.Outcome State Fault Refusal :=
  raise (DecodeReject.errKind why) (s.pc + BitVec.ofNat 16 last) s

/-- The state with the bytes placed in ROM from address `a` on, modulo 65536: a host's load of a program image (R344). -/
def State.placeBytes (s : State) (a : Word) : List Byte → State
  | [] => s
  | b :: bytes => State.placeBytes { s with rom := s.rom.write a.toNat b } (a + 1) bytes

end Sys2Proof.Machine
end

