-- ==== Sys2Proof/Machine/Step.lean ====
section
/-!
DEFINITION. One step of the core (40_cycle.md R161, R170), and the load of one instruction word for the host's checks.
-/

namespace Sys2Proof.Machine

/-- One step executes exactly one instruction, or takes the error its fetch, decode or operand phase raises (R161, R170);
where no step is enabled it is refused by name (R160, U14). -/
def step (s : State) : Host.Outcome State Fault Refusal :=
  match s.stopReason with
  | some reason => .refused reason
  | none =>
    match s.decodeNext with
    | .instr i => exec i s
    | .reject why last => raiseReject why last s

/-- The state with the instruction of bits `w` (numbered as spec/opcode_table.json numbers them) in ROM at `pc`, where `step`
fetches. Log entry 14: it stands for the host's load of a program image. -/
def State.withFetchWord (s : State) (nbits w : Nat) : State := s.placeBytes s.pc (tableBytes nbits w)

end Sys2Proof.Machine
end

