-- ==== Sys2Proof/Machine/Assembler.lean ====
section
/-!
DEFINITION. The assembler (30_encoding.md section 4, rules R130 to R144): toolchain, not hardware (R7), but it defines the textual form of
the instruction set. Text is a list of characters; an image is a memory of 65536 bytes that reads 0x00 where nothing is
written (R139).
-/

namespace Sys2Proof.Machine

/-- The kinds of assembly error (R140). -/
inductive AsmErrorKind where
  /-- unknown mnemonic, malformed directive operand, wrong directive arity -/
  | syntaxError
  /-- no variant of the mnemonic matches the operands, or the bytes would pass 0xFFFF (R141) -/
  | encodingError
deriving DecidableEq, Repr

/-- An assembly error: its kind, the 1-based line number and the statement's tokens (R140, log entry 17). -/
structure AsmError where
  kind : AsmErrorKind
  line : Nat
  tokens : List (List Char)
deriving DecidableEq, Repr

/-- The write cursor, which is 65536 after a byte at 0xFFFF, and the image (R139). -/
structure AsmState where
  cursor : Nat
  image : Memory
deriving DecidableEq, Repr

/-! ## Lines and tokens -/

/-- The text cut at every line feed (R130). -/
def splitLines : List Char → List (List Char)
  | [] => [[]]
  | ch :: text =>
    if ch = '\n' then [] :: splitLines text
    else
      match splitLines text with
      | [] => [[ch]]
      | line :: lines => (ch :: line) :: lines

/-- A line without its comment, which starts at the first `;` (R130). -/
def stripComment (line : List Char) : List Char := line.takeWhile (· ≠ ';')

/-- White space and commas separate tokens (R131). Log entry 16: white space is space, tab, line feed and carriage return. -/
def isSeparator (ch : Char) : Bool := ch.isWhitespace || ch == ','

/-- The maximal runs of characters that are no separators, in order, with no empty ones (R131). -/
def tokensOf : List Char → List (List Char)
  | [] => []
  | [ch] => if isSeparator ch then [] else [[ch]]
  | ch :: next :: text =>
    if isSeparator ch then tokensOf (next :: text)
    else if isSeparator next then [ch] :: tokensOf (next :: text)
    else
      match tokensOf (next :: text) with
      | [] => [[ch]]
      | token :: tokens => (ch :: token) :: tokens

/-! ## Operand tokens -/

/-- The value of a hexadecimal digit of either case (R134). -/
def hexDigit (ch : Char) : Option Nat :=
  if '0' ≤ ch ∧ ch ≤ '9' then some (ch.toNat - '0'.toNat)
  else if 'a' ≤ ch ∧ ch ≤ 'f' then some (ch.toNat - 'a'.toNat + 10)
  else if 'A' ≤ ch ∧ ch ≤ 'F' then some (ch.toNat - 'A'.toNat + 10)
  else none

/-- The digits appended to the number `acc`, none where a character is no digit. -/
def hexDigits (acc : Nat) : List Char → Option Nat
  | [] => some acc
  | ch :: digits =>
    match hexDigit ch with
    | none => none
    | some d => hexDigits (acc * 16 + d) digits

/-- One or more hexadecimal digits as an unsigned number; leading zeros are allowed (R134, R135). -/
def hexNumber (digits : List Char) : Option Nat :=
  if digits = [] then none else hexDigits 0 digits

/-- A register token: `r` and one decimal digit 0 to 7, exactly two characters (R133). -/
def parseRegister (token : List Char) : Option Reg :=
  match token with
  | ['r', '0'] => some 0
  | ['r', '1'] => some 1
  | ['r', '2'] => some 2
  | ['r', '3'] => some 3
  | ['r', '4'] => some 4
  | ['r', '5'] => some 5
  | ['r', '6'] => some 6
  | ['r', '7'] => some 7
  | _ => none

/-- A value token: `#` and a hexadecimal number of at most 0xFF (R134). -/
def parseValue (token : List Char) : Option Byte :=
  match token with
  | '#' :: digits =>
    match hexNumber digits with
    | some n => if n ≤ 0xFF then some (BitVec.ofNat 8 n) else none
    | none => none
  | _ => none

/-- An address token: `$` and a hexadecimal number of at most 0xFFFF (R135). -/
def parseAddress (token : List Char) : Option Word :=
  match token with
  | '$' :: digits =>
    match hexNumber digits with
    | some n => if n ≤ 0xFFFF then some (BitVec.ofNat 16 n) else none
    | none => none
  | _ => none

/-- A token read as an operand of the given type (R138). -/
def parseOperand (t : OperandType) (token : List Char) : Option Operand :=
  match t with
  | .register => (parseRegister token).map .register
  | .value => (parseValue token).map .value
  | .address => (parseAddress token).map .address

/-- The tokens read as operands of a signature: the same arity, and every type parses its token (R138). -/
def parseOperands : Signature → List (List Char) → Option (List Operand)
  | [], [] => some []
  | t :: sig, token :: tokens =>
    match parseOperand t token, parseOperands sig tokens with
    | some op, some ops => some (op :: ops)
    | _, _ => none
  | _, _ => none

/-! ## Instructions, directives and emission -/

/-- The variants of a mnemonic in ascending opcode order (R138). -/
def variantsOf (t : SyntaxTable) (mnemonic : List Char) : List TableRow :=
  (t.filter fun r => r.mnemonic.toList == mnemonic).insertionSort fun a b => a.opcode.toNat ≤ b.opcode.toNat

/-- The bytes of the first variant whose signature parses the tokens (R138, R139). -/
def matchVariant : List TableRow → List (List Char) → Option (List Byte)
  | [], _ => none
  | row :: rows, tokens =>
    match parseOperands row.signature tokens with
    | some ops => some (row.opcode :: ops.flatMap Operand.bytes)
    | none => matchVariant rows tokens

/-- The bytes written at the cursor, which moves past them; bytes that would pass 0xFFFF are an `EncodingError` (R139, R141). -/
def emit (err : AsmErrorKind → AsmError) (st : AsmState) (bytes : List Byte) : Except AsmError AsmState :=
  if st.cursor + bytes.length ≤ romSize then
    .ok ⟨st.cursor + bytes.length, Memory.writeBytes st.image st.cursor bytes⟩
  else
    .error (err .encodingError)

/-- One statement, its mnemonic token split off (R130, R136 to R140). -/
def assembleStatement (t : SyntaxTable) (err : AsmErrorKind → AsmError) (st : AsmState) (mnemonic : List Char)
    (operands : List (List Char)) : Except AsmError AsmState :=
  if mnemonic = ".text".toList then
    match parseOperands [.address] operands with
    | some [.address a] => .ok { st with cursor := a.toNat }
    | _ => .error (err .syntaxError)
  else if mnemonic = ".byte".toList then
    match parseOperands [.address, .value] operands with
    | some [.address a, .value v] => .ok { st with image := st.image.write a.toNat v }
    | _ => .error (err .syntaxError)
  else if variantsOf t mnemonic = [] then
    .error (err .syntaxError)
  else
    match matchVariant (variantsOf t mnemonic) operands with
    | some bytes => emit err st bytes
    | none => .error (err .encodingError)

/-- One line (R130): the comment stripped, a blank line skipped. Log entry 17: a line of commas only has no mnemonic and is a `SyntaxError`. -/
def assembleLine (t : SyntaxTable) (line : Nat) (st : AsmState) (text : List Char) : Except AsmError AsmState :=
  if (stripComment text).all Char.isWhitespace then .ok st
  else
    match tokensOf (stripComment text) with
    | [] => .error ⟨.syntaxError, line, []⟩
    | mnemonic :: operands =>
      assembleStatement t (fun kind => ⟨kind, line, mnemonic :: operands⟩) st mnemonic operands

/-- The lines in order, numbered from `line` on; the first error aborts (R130, R140). -/
def assembleLines (t : SyntaxTable) : Nat → AsmState → List (List Char) → Except AsmError AsmState
  | _, st, [] => .ok st
  | line, st, text :: rest =>
    match assembleLine t line st text with
    | .ok st' => assembleLines t (line + 1) st' rest
    | .error e => .error e

/-- The assembler: the text of a program to a ROM image (R130, R139, R140). -/
def assemble (t : SyntaxTable) (text : List Char) : Except AsmError Memory :=
  (assembleLines t 1 ⟨0, []⟩ (splitLines text)).map AsmState.image

/-! ## Canonical text -/

/-- The hexadecimal digit of a number below 16 in canonical text, in upper case: DESIGN CHOICE (log entry 25), since R143 names no case and R134
accepts both. -/
def hexChar (d : Nat) : Char :=
  if d < 10 then Char.ofNat ('0'.toNat + d) else Char.ofNat ('A'.toNat + (d - 10))

/-- The two digits of a byte. -/
def hexOfByte (b : Byte) : List Char := [hexChar (b.toNat / 16), hexChar (b.toNat % 16)]

/-- The canonical token of an operand (R143). -/
def operandText : Operand → List Char
  | .register r => ['r', Char.ofNat ('0'.toNat + r.val)]
  | .value v => '#' :: hexOfByte v
  | .address a => '$' :: (hexOfByte (hiByte a) ++ hexOfByte (loByte a))

/-- The canonical operand list: tokens separated by a comma and a space (R143). -/
def operandsText : List Operand → List Char
  | [] => []
  | [op] => operandText op
  | op :: ops => operandText op ++ [',', ' '] ++ operandsText ops

/-- The canonical text of an instruction (R143). -/
def canonicalText (i : Instr) : List Char :=
  i.mnemonic.toList ++ (if i.operands = [] then [] else ' ' :: operandsText i.operands)

end Sys2Proof.Machine
end

