-- ==== Sys2Proof/Machine/Launch.lean ====
section
/-!
DEFINITION. What the host does to the core between runs (70_reset_and_hazards.md R340 to R344, R350, R351): loading a Syntax Table, booting,
reset, and the output ports.
-/

namespace Sys2Proof.Machine

/-- Why no run starts (R110, R302, U19). -/
inductive LoadError where
  /-- the table is malformed or binds one opcode byte twice: `SyntaxTableLoadError` (R110) -/
  | syntaxTableLoadError
  /-- `RAM_SIZE` is not in 1 to 65536 (R11); log entry 19 -/
  | ramSizeIllegal
  /-- a ROM image or RAM buffer that is not in canonical form or not within its size; log entry 19 -/
  | bufferIllegal
deriving DecidableEq, Repr

/-- The Syntax Table as it comes from outside: mnemonic to opcode byte to operand types (R110, R118). Log entry 18. -/
abbrev TableDescription := List (String × List (Nat × List String))

/-- The operand type a tag of a description names, if it names one (R118). -/
def operandTypeOfTag (tag : String) : Option OperandType :=
  if tag = "register" then some .register
  else if tag = "value" then some .value
  else if tag = "address" then some .address
  else none

/-- The table entry of one opcode of a description; none where the opcode is above 255 or a tag is no operand type (R110, R118). -/
def rowOfDescription (mnemonic : String) (opcode : Nat) (tags : List String) : Option TableRow :=
  if opcode < 256 then
    (tags.mapM operandTypeOfTag).map fun sig => ⟨BitVec.ofNat 8 opcode, mnemonic, sig⟩
  else
    none

/-- Loading a table (R110, R344): a malformed one, or one that breaks the uniqueness of opcode bytes, is refused. A mnemonic with no opcode at
all leaves no row, so the assembler takes it for unknown (R140): DESIGN CHOICE (log entry 26). -/
def loadTable (d : TableDescription) : Except LoadError SyntaxTable :=
  match (d.flatMap fun e => e.2.map fun v => (e.1, v)).mapM fun e => rowOfDescription e.1 e.2.1 e.2.2 with
  | none => .error .syntaxTableLoadError
  | some t => if SyntaxTable.wf t then .ok t else .error .syntaxTableLoadError

/-- A freshly constructed core (R341, R343) with its configuration, ROM image and RAM buffer: every other field as reset leaves it (R42). The stack entries,
which the spec leaves unspecified, hold 0x00 (log entry 6). -/
def construct (p : Config) (rom ram : Memory) : State where
  cfg := p
  rom := rom
  ram := ram
  x := Vector.replicate 8 p.regReset
  pc := 0x0000
  z := false
  c := false
  h := false
  sp := 0
  stk := Vector.replicate stackDepth 0x00
  err := none

/-- The boot requirements in order (R344): a well-formed table, the ROM image, the RAM buffer, then reset. -/
def boot (p : Config) (rom ram : Memory) : Except LoadError State :=
  if ¬ SyntaxTable.wf p.table then .error .syntaxTableLoadError
  else if ¬ (1 ≤ p.ramSize ∧ p.ramSize ≤ 65536) then .error .ramSizeIllegal
  else if ¬ (rom.wf ∧ Memory.below romSize rom ∧ ram.wf ∧ Memory.below p.ramSize ram) then .error .bufferIllegal
  else .ok (construct p rom ram)

/-- Reset (R340): a full re-initialisation that does not change ROM, RAM or the Syntax Table, and the same as fresh construction (R341). -/
def resetCore (s : State) : State := construct s.cfg s.rom s.ram

/-! ## Output ports (R350) -/

/-- `halted` -/
def haltedPort (s : State) : Bool := s.h

/-- `err_valid` -/
def errValidPort (s : State) : Bool := s.err.isSome

/-- `err_code[2:0]`: 0 where there is no error (R300). -/
def errCodePort (s : State) : BitVec 3 :=
  match s.err with
  | none => 0
  | some e => e.kind.code

/-- `err_ipc[15:0]`, while `err_valid` holds. -/
def errIpcPort (s : State) : Option Word := s.err.map ErrorRecord.ipc

/-- `err_opcode[7:0]`, while `err_valid` holds. -/
def errOpcodePort (s : State) : Option Byte := s.err.map ErrorRecord.opcode

end Sys2Proof.Machine
end

