-- ==== Sys2Proof/Safety.lean ====
section
/-!
DEFINITION. What counts as a running, an ended and a sound state (10_state.md R38, R44; 70_reset_and_hazards.md R352), in the terms the
statements use.
-/

namespace Sys2Proof.Machine

/-- A step is enabled: the core is Running and has no error (R160). -/
abbrev State.Enabled (s : State) : Prop := s.h = false ∧ s.err = none

/-- The two end states of R44: the program halted, or a fatal error stopped it. -/
abbrev State.Ended (s : State) : Prop := (s.h = true ∧ s.err = none) ∨ s.err ≠ none

/-- The run from `s` ends in `t` (R44, R352). -/
def EndsIn (s t : State) : Prop := ∃ k, Host.Core.run core k s = .next t ∧ t.Ended

/-- A step that completes its instruction without an error. -/
def SafeStep (s : State) : Prop := ∃ t, step s = .next t ∧ t.err = none

/-- What holds of every state a run can reach. -/
structure State.Inv (s : State) : Prop where
  /-- the table is well-formed and `RAM_SIZE` is legal (R11, R110, R118) -/
  config : s.cfg.wf
  /-- ROM is in its canonical form -/
  romCanonical : s.rom.wf
  /-- ROM cells lie in 0x0000 to 0xFFFF (R60) -/
  romBounded : Memory.below romSize s.rom
  /-- RAM is in its canonical form -/
  ramCanonical : s.ram.wf
  /-- RAM cells lie below `RAM_SIZE`: no access at an illegal address is ever performed (R63) -/
  ramBounded : Memory.below s.cfg.ramSize s.ram
  /-- an error does not set the halt flag, and a halted core has no error (R44, 90_conflicts.md C5) -/
  haltHasNoError : s.h = true → s.err = none
  /-- `PcWrapError` is never on the default `PC_WRAP = wrap` (R300) -/
  wrapErrorNeedsFault : ∀ e, s.err = some e → e.kind = .pcWrap → s.cfg.pcWrap = .fault

/-- The register an instruction writes, if it writes one (R22). -/
def destination : Instr → Option Reg
  | .nop => none
  | .jump _ => none
  | .push _ => none
  | .pop rd => some rd
  | .clear rd => some rd
  | .inc rd => some rd
  | .halt => none
  | .addReg rd _ => some rd
  | .addImm rd _ => some rd
  | .movReg rd _ => some rd
  | .movImm rd _ => some rd
  | .lpm rd _ => some rd
  | .load rd _ => some rd
  | .store _ _ => none

/-- Two states that differ at most in the flags `Z` and `C` (R32). -/
def SameButZeroCarry (s t : State) : Prop := t = { s with z := t.z, c := t.c }

/-- Two states that differ at most in stack entries at indices `>= sp` (R41). -/
def SameButDeadStack (s t : State) : Prop :=
  t = { s with stk := t.stk } ∧ ∀ k (h : k < stackDepth), k < s.sp.val → t.stk[k] = s.stk[k]

end Sys2Proof.Machine
end

