-- ==== Sys2Proof/Certificates/Slice0/Obligations.lean ====
section
/-!
DEFINITION. The statements for the provers, in the order of OBLIGATIONS.json. A configuration is part of the state, so a statement over every
state holds for every Syntax Table, `RAM_SIZE`, `PC_WRAP`, `JUMP_RAM_CHECK` and `INC_ZERO_MODE`. `s.pcFits n` says that `n`
increments of `pc` succeed, which is always so under `PC_WRAP = wrap`, this hardware's value (R169).
-/

open Sys2Proof Sys2Proof.Machine

/-- Opcode byte `op` is bound to the form (R110 to R112). -/
def Sys2Proof.Binds (p : Config) (op : Byte) (mnemonic : String) (sig : Signature) : Prop :=
  ∃ row : TableRow, lookupOpcode p.table op = some row ∧ row.mnemonic = mnemonic ∧ row.signature = sig

/-- The encoding part of an instruction rule: under every configuration, an opcode byte bound to the form and the slots decode to the instruction
where the configuration accepts it, whatever bytes follow; and the reference opcode byte is `o`. (The reference bytes are the
spec's own choice: R113, decision D1, log entry 2.) -/
def Sys2Proof.EncodedAs (i : Instr) (mnemonic : String) (sig : Signature) (o : Byte) (slots : List Byte) : Prop :=
  encode i = o :: slots ∧ Binds referenceConfig o mnemonic sig ∧
    ∀ (p : Config) (op : Byte), Binds p op mnemonic sig → i.wf p = true →
      ∀ rest, decode p (op :: (slots ++ rest)) = .instr i

/-- The exceptions part of an instruction rule: under every configuration an opcode byte bound to the form with these slots is
rejected with `OperandRangeError` when the byte at offset `last` has been read, whatever bytes follow. -/
def Sys2Proof.OutOfRangeAt (mnemonic : String) (sig : Signature) (slots : List Byte) (last : Nat) : Prop :=
  ∀ (p : Config) (op : Byte), Binds p op mnemonic sig →
    ∀ rest, decode p (op :: (slots ++ rest)) = .reject .operandRange last

/-- The byte of a register slot (R102). -/
def Sys2Proof.registerByte (r : Reg) : Byte := BitVec.ofNat 8 r.val

/-- The state after error `k` of the instruction at `s.pc`: the latch and `pc` written, all else as before (R171, R303). -/
def Sys2Proof.errorState (s : State) (k : ErrKind) (pcLeft : Word) : State :=
  { s with pc := pcLeft, err := some ⟨k, s.pc, s.romRead s.pc⟩ }

/-! ## The instruction rules -/

/-- R190. -/
def Obligations.NopRule : Prop :=
  EncodedAs .nop "NOP" [] 0x00 [] ∧
  ∀ s : State, s.pcFits 1 = true → exec .nop s = .next { s with pc := s.pc + 1 }

/-- R191. The target is any 16-bit address where `JUMP_RAM_CHECK` is false, this hardware's value. -/
def Obligations.JumpRule : Prop :=
  (∀ lo hi : Byte, EncodedAs (.jump (hi ++ lo)) "JUMP" [.address] 0x01 [lo, hi]) ∧
  ∀ (a : Word) (s : State), s.pcFits 2 = true → s.cfg.jumpRamCheck = false →
    exec (.jump a) s = .next { s with pc := a }

/-- R194. -/
def Obligations.HaltRule : Prop :=
  EncodedAs .halt "HALT" [] 0x06 [] ∧
  ∀ s : State, exec .halt s = .next { s with h := true }

/-- R210, R212. -/
def Obligations.PushRule : Prop :=
  (∀ rs : Reg, EncodedAs (.push rs) "PUSH" [.register] 0x02 [registerByte rs]) ∧
  (∀ b : Byte, 8 ≤ b.toNat → OutOfRangeAt "PUSH" [.register] [b] 1) ∧
  (∀ (rs : Reg) (s : State) (h : s.sp.val < 32), s.pcFits 2 = true →
    exec (.push rs) s = .next { s with
      stk := s.stk.set s.sp.val s.x[rs.val]
      sp := ⟨s.sp.val + 1, Nat.succ_lt_succ h⟩
      pc := s.pc + 2 }) ∧
  (∀ (rs : Reg) (s : State), s.sp.val = 32 → s.pcFits 1 = true →
    exec (.push rs) s = .next (errorState s .stackOverflow (s.pc + 1)))

/-- R211, R213. -/
def Obligations.PopRule : Prop :=
  (∀ rd : Reg, EncodedAs (.pop rd) "POP" [.register] 0x03 [registerByte rd]) ∧
  (∀ b : Byte, 8 ≤ b.toNat → OutOfRangeAt "POP" [.register] [b] 1) ∧
  (∀ (rd : Reg) (s : State) (h : 0 < s.sp.val), s.pcFits 2 = true →
    exec (.pop rd) s = .next { s with
      x := s.x.set rd.val (s.stk[s.sp.val - 1]'(by have := s.sp.isLt; omega))
      sp := ⟨s.sp.val - 1, by have := s.sp.isLt; omega⟩
      pc := s.pc + 2 }) ∧
  (∀ (rd : Reg) (s : State), s.sp.val = 0 → s.pcFits 1 = true →
    exec (.pop rd) s = .next (errorState s .stackUnderflow (s.pc + 1)))

/-- R231. -/
def Obligations.ClearRule : Prop :=
  (∀ rd : Reg, EncodedAs (.clear rd) "CLEAR" [.register] 0x04 [registerByte rd]) ∧
  (∀ b : Byte, 8 ≤ b.toNat → OutOfRangeAt "CLEAR" [.register] [b] 1) ∧
  ∀ (rd : Reg) (s : State), s.pcFits 2 = true →
    exec (.clear rd) s = .next { s with x := s.x.set rd.val 0x00, z := true, pc := s.pc + 2 }

/-- R232, with `INC_ZERO_MODE = index`, this hardware's value: `Z` tells whether the register INDEX is 0. -/
def Obligations.IncRule : Prop :=
  (∀ rd : Reg, EncodedAs (.inc rd) "INC" [.register] 0x05 [registerByte rd]) ∧
  (∀ b : Byte, 8 ≤ b.toNat → OutOfRangeAt "INC" [.register] [b] 1) ∧
  ∀ (rd : Reg) (s : State), s.pcFits 2 = true → s.cfg.incZeroMode = .index →
    exec (.inc rd) s = .next { s with
      x := s.x.set rd.val (s.x[rd.val] + 1)
      z := decide (rd.val = 0)
      c := decide (s.x[rd.val] = 0xFF)
      pc := s.pc + 2 }

/-- R233. -/
def Obligations.AddRegisterRule : Prop :=
  (∀ rd rs : Reg, EncodedAs (.addReg rd rs) "ADD" [.register, .register] 0x07 [registerByte rd, registerByte rs]) ∧
  (∀ b : Byte, 8 ≤ b.toNat → OutOfRangeAt "ADD" [.register, .register] [b] 1) ∧
  (∀ (rd : Reg) (b : Byte), 8 ≤ b.toNat → OutOfRangeAt "ADD" [.register, .register] [registerByte rd, b] 2) ∧
  ∀ (rd rs : Reg) (s : State), s.pcFits 3 = true →
    exec (.addReg rd rs) s = .next { s with
      x := s.x.set rd.val (s.x[rd.val] + s.x[rs.val])
      z := decide (s.x[rd.val] + s.x[rs.val] = 0)
      c := decide (255 < s.x[rd.val].toNat + s.x[rs.val].toNat)
      pc := s.pc + 3 }

/-- R234. -/
def Obligations.AddImmediateRule : Prop :=
  (∀ (rd : Reg) (imm : Byte), EncodedAs (.addImm rd imm) "ADD" [.register, .value] 0x08 [registerByte rd, imm]) ∧
  (∀ b : Byte, 8 ≤ b.toNat → OutOfRangeAt "ADD" [.register, .value] [b] 1) ∧
  ∀ (rd : Reg) (imm : Byte) (s : State), s.pcFits 3 = true →
    exec (.addImm rd imm) s = .next { s with
      x := s.x.set rd.val (s.x[rd.val] + imm)
      z := decide (s.x[rd.val] + imm = 0)
      c := decide (255 < s.x[rd.val].toNat + imm.toNat)
      pc := s.pc + 3 }

/-- R250. -/
def Obligations.MoveRegisterRule : Prop :=
  (∀ rd rs : Reg, EncodedAs (.movReg rd rs) "MOV" [.register, .register] 0x09 [registerByte rd, registerByte rs]) ∧
  (∀ b : Byte, 8 ≤ b.toNat → OutOfRangeAt "MOV" [.register, .register] [b] 1) ∧
  (∀ (rd : Reg) (b : Byte), 8 ≤ b.toNat → OutOfRangeAt "MOV" [.register, .register] [registerByte rd, b] 2) ∧
  ∀ (rd rs : Reg) (s : State), s.pcFits 3 = true →
    exec (.movReg rd rs) s = .next { s with x := s.x.set rd.val s.x[rs.val], pc := s.pc + 3 }

/-- R251. -/
def Obligations.MoveImmediateRule : Prop :=
  (∀ (rd : Reg) (imm : Byte), EncodedAs (.movImm rd imm) "MOV" [.register, .value] 0x0A [registerByte rd, imm]) ∧
  (∀ b : Byte, 8 ≤ b.toNat → OutOfRangeAt "MOV" [.register, .value] [b] 1) ∧
  ∀ (rd : Reg) (imm : Byte) (s : State), s.pcFits 3 = true →
    exec (.movImm rd imm) s = .next { s with x := s.x.set rd.val imm, pc := s.pc + 3 }

/-- R270. The address is never checked, and the byte is ROM's. -/
def Obligations.LpmRule : Prop :=
  (∀ (rd : Reg) (lo hi : Byte), EncodedAs (.lpm rd (hi ++ lo)) "LPM" [.register, .address] 0x0B [registerByte rd, lo, hi]) ∧
  (∀ b : Byte, 8 ≤ b.toNat → OutOfRangeAt "LPM" [.register, .address] [b] 1) ∧
  ∀ (rd : Reg) (a : Word) (s : State), s.pcFits 4 = true →
    exec (.lpm rd a) s = .next { s with x := s.x.set rd.val (s.romRead a), pc := s.pc + 4 }

/-- R271. The address is checked against `RAM_SIZE` at the fourth byte, after the register slot. -/
def Obligations.LoadRule : Prop :=
  (∀ (rd : Reg) (lo hi : Byte), EncodedAs (.load rd (hi ++ lo)) "LOAD" [.register, .address] 0x0C [registerByte rd, lo, hi]) ∧
  (∀ b : Byte, 8 ≤ b.toNat → OutOfRangeAt "LOAD" [.register, .address] [b] 1) ∧
  (∀ (p : Config) (op : Byte) (rd : Reg) (lo hi : Byte) (rest : List Byte), Binds p op "LOAD" [.register, .address] →
    p.ramSize ≤ hi.toNat * 256 + lo.toNat →
    decode p (op :: registerByte rd :: lo :: hi :: rest) = .reject .operandRange 3) ∧
  ∀ (rd : Reg) (a : Word) (s : State), s.pcFits 4 = true → a.toNat < s.cfg.ramSize →
    exec (.load rd a) s = .next { s with
      x := s.x.set rd.val (s.ramRead a)
      z := decide (s.ramRead a = 0)
      pc := s.pc + 4 }

/-- R272. The address is checked at the third byte, before the register slot is read. -/
def Obligations.StoreRule : Prop :=
  (∀ (lo hi : Byte) (rs : Reg), EncodedAs (.store (hi ++ lo) rs) "STORE" [.address, .register] 0x0D [lo, hi, registerByte rs]) ∧
  (∀ (p : Config) (op lo hi : Byte) (rest : List Byte), Binds p op "STORE" [.address, .register] →
    p.ramSize ≤ hi.toNat * 256 + lo.toNat →
    decode p (op :: lo :: hi :: rest) = .reject .operandRange 2) ∧
  (∀ (p : Config) (op lo hi b : Byte) (rest : List Byte), Binds p op "STORE" [.address, .register] →
    hi.toNat * 256 + lo.toNat < p.ramSize → 8 ≤ b.toNat →
    decode p (op :: lo :: hi :: b :: rest) = .reject .operandRange 3) ∧
  (∀ (a : Word) (rs : Reg) (s : State), s.pcFits 4 = true → a.toNat < s.cfg.ramSize → s.ram.wf →
    ∃ t : State, exec (.store a rs) s = .next t ∧
      t = { s with ram := t.ram, pc := s.pc + 4 } ∧
      t.ramRead a = s.x[rs.val] ∧
      ∀ b : Word, b ≠ a → t.ramRead b = s.ramRead b)

/-! ## Frames -/

/-- What MOV (both forms) and LPM leave unchanged, in every next state (an error entry among them): everything but `x[rd]`, `pc`
and the error latch, which takes only an error of this instruction. -/
def Obligations.MoveAndLpmFrame : Prop :=
  ∀ (i : Instr) (rd : Reg) (s t : State),
    ((∃ rs, i = .movReg rd rs) ∨ (∃ imm, i = .movImm rd imm) ∨ (∃ a, i = .lpm rd a)) →
    exec i s = .next t →
    (∀ r : Reg, r ≠ rd → t.x[r.val] = s.x[r.val]) ∧
    (∀ a : Word, t.ramRead a = s.ramRead a) ∧ (∀ a : Word, t.romRead a = s.romRead a) ∧
    t.z = s.z ∧ t.c = s.c ∧ t.h = s.h ∧ t.sp = s.sp ∧ t.stk = s.stk ∧ t.cfg = s.cfg ∧
    (t.err = s.err ∨ ∃ k, t.err = some ⟨k, s.pc, s.romRead s.pc⟩)

/-- What CLEAR and LOAD leave unchanged: everything but `x[rd]`, `Z`, `pc` and the error latch. -/
def Obligations.ClearAndLoadFrame : Prop :=
  ∀ (i : Instr) (rd : Reg) (s t : State),
    (i = .clear rd ∨ ∃ a, i = .load rd a) →
    exec i s = .next t →
    (∀ r : Reg, r ≠ rd → t.x[r.val] = s.x[r.val]) ∧
    (∀ a : Word, t.ramRead a = s.ramRead a) ∧ (∀ a : Word, t.romRead a = s.romRead a) ∧
    t.c = s.c ∧ t.h = s.h ∧ t.sp = s.sp ∧ t.stk = s.stk ∧ t.cfg = s.cfg ∧
    (t.err = s.err ∨ ∃ k, t.err = some ⟨k, s.pc, s.romRead s.pc⟩)

/-- What INC and ADD (both forms) leave unchanged: everything but `x[rd]`, `Z`, `C`, `pc` and the error latch. -/
def Obligations.IncAndAddFrame : Prop :=
  ∀ (i : Instr) (rd : Reg) (s t : State),
    (i = .inc rd ∨ (∃ rs, i = .addReg rd rs) ∨ ∃ imm, i = .addImm rd imm) →
    exec i s = .next t →
    (∀ r : Reg, r ≠ rd → t.x[r.val] = s.x[r.val]) ∧
    (∀ a : Word, t.ramRead a = s.ramRead a) ∧ (∀ a : Word, t.romRead a = s.romRead a) ∧
    t.h = s.h ∧ t.sp = s.sp ∧ t.stk = s.stk ∧ t.cfg = s.cfg ∧
    (t.err = s.err ∨ ∃ k, t.err = some ⟨k, s.pc, s.romRead s.pc⟩)

/-- What PUSH and POP leave unchanged: the flags, both memories, every register but POP's `rd`, and every stack entry
but the one PUSH writes, at `sp`. `sp` moves by one, up for PUSH and down for POP, or stays where an error is entered. -/
def Obligations.StackFrame : Prop :=
  ∀ (r : Reg) (s t : State),
    (exec (.push r) s = .next t →
      t.x = s.x ∧ (∀ a : Word, t.ramRead a = s.ramRead a) ∧ (∀ a : Word, t.romRead a = s.romRead a) ∧
      t.z = s.z ∧ t.c = s.c ∧ t.h = s.h ∧ t.cfg = s.cfg ∧
      (∀ k (h : k < stackDepth), k ≠ s.sp.val → t.stk[k] = s.stk[k]) ∧
      (t.sp.val = s.sp.val + 1 ∨ (t.sp = s.sp ∧ t.stk = s.stk ∧ t.err ≠ none)) ∧
      (t.err = s.err ∨ ∃ k, t.err = some ⟨k, s.pc, s.romRead s.pc⟩)) ∧
    (exec (.pop r) s = .next t →
      (∀ q : Reg, q ≠ r → t.x[q.val] = s.x[q.val]) ∧
      (∀ a : Word, t.ramRead a = s.ramRead a) ∧ (∀ a : Word, t.romRead a = s.romRead a) ∧
      t.z = s.z ∧ t.c = s.c ∧ t.h = s.h ∧ t.cfg = s.cfg ∧ t.stk = s.stk ∧
      (t.sp.val + 1 = s.sp.val ∨ (t.sp = s.sp ∧ t.x = s.x ∧ t.err ≠ none)) ∧
      (t.err = s.err ∨ ∃ k, t.err = some ⟨k, s.pc, s.romRead s.pc⟩))

/-- What STORE leaves unchanged: everything but the RAM byte at its address operand, `pc` and the error latch. -/
def Obligations.StoreFrame : Prop :=
  ∀ (a : Word) (rs : Reg) (s t : State), exec (.store a rs) s = .next t →
    (∀ b : Word, b ≠ a → t.ramRead b = s.ramRead b) ∧ (∀ b : Word, t.romRead b = s.romRead b) ∧
    t.x = s.x ∧ t.z = s.z ∧ t.c = s.c ∧ t.h = s.h ∧ t.sp = s.sp ∧ t.stk = s.stk ∧ t.cfg = s.cfg ∧
    (t.err = s.err ∨ ∃ k, t.err = some ⟨k, s.pc, s.romRead s.pc⟩)

/-- What NOP, JUMP and HALT leave unchanged: registers, memories, `Z`, `C`, the stack, and `H` but for HALT. -/
def Obligations.ControlFrame : Prop :=
  ∀ (i : Instr) (s t : State), (i = .nop ∨ (∃ a, i = .jump a) ∨ i = .halt) → exec i s = .next t →
    t.x = s.x ∧ (∀ a : Word, t.ramRead a = s.ramRead a) ∧ (∀ a : Word, t.romRead a = s.romRead a) ∧
    t.z = s.z ∧ t.c = s.c ∧ (i ≠ .halt → t.h = s.h) ∧ t.sp = s.sp ∧ t.stk = s.stk ∧ t.cfg = s.cfg ∧
    (t.err = s.err ∨ ∃ k, t.err = some ⟨k, s.pc, s.romRead s.pc⟩)

/-! ## Whole-machine tables -/

/-- R25: how each instruction leaves `pc` when it completes. -/
def Obligations.ProgramCounterTable : Prop :=
  ∀ (i : Instr) (s t : State), exec i s = .next t → t.err = none →
    t.pc =
      match i with
      | .jump a => a
      | .halt => s.pc
      | .nop => s.pc + 1
      | .push _ | .pop _ | .clear _ | .inc _ => s.pc + 2
      | .addReg _ _ | .addImm _ _ | .movReg _ _ | .movImm _ _ => s.pc + 3
      | .lpm _ _ | .load _ _ | .store _ _ => s.pc + 4

/-- R31: which flags each instruction writes when it completes, and with what. -/
def Obligations.FlagTable : Prop :=
  ∀ (i : Instr) (s t : State), exec i s = .next t → t.err = none → s.cfg.incZeroMode = .index →
    t.z =
      (match i with
      | .clear _ => true
      | .inc rd => decide (rd.val = 0)
      | .addReg rd rs => decide (s.x[rd.val] + s.x[rs.val] = 0)
      | .addImm rd imm => decide (s.x[rd.val] + imm = 0)
      | .load _ a => decide (s.ramRead a = 0)
      | .nop | .jump _ | .push _ | .pop _ | .halt | .movReg _ _ | .movImm _ _ | .lpm _ _ | .store _ _ => s.z) ∧
    t.c =
      (match i with
      | .inc rd => decide (255 < s.x[rd.val].toNat + 1)
      | .addReg rd rs => decide (255 < s.x[rd.val].toNat + s.x[rs.val].toNat)
      | .addImm rd imm => decide (255 < s.x[rd.val].toNat + imm.toNat)
      | .nop | .jump _ | .push _ | .pop _ | .clear _ | .halt | .movReg _ _ | .movImm _ _ | .lpm _ _
      | .load _ _ | .store _ _ => s.c) ∧
    t.h =
      (match i with
      | .halt => true
      | .nop | .jump _ | .push _ | .pop _ | .clear _ | .inc _ | .addReg _ _ | .addImm _ _ | .movReg _ _
      | .movImm _ _ | .lpm _ _ | .load _ _ | .store _ _ => s.h)

/-- The write column of R22: no instruction changes a register other than its destination, and a step that is an error
of the operand phase changes none. -/
def Obligations.OnlyTheDestinationRegisterChanges : Prop :=
  ∀ (s t : State), step s = .next t →
    match s.decodeNext with
    | .instr i => ∀ r : Reg, destination i ≠ some r → t.x[r.val] = s.x[r.val]
    | .reject _ _ => t.x = s.x

/-- No step writes ROM (R61), and none changes the Syntax Table or any other parameter (R40, R43, R350). That the parameters are fields of
State is the model's choice (log entry 1). -/
def Obligations.RomAndConfigurationNeverChange : Prop :=
  ∀ s t : State, step s = .next t → t.rom = s.rom ∧ t.cfg = s.cfg

/-- Only STORE writes RAM: a step that changes any RAM byte decoded a STORE to that very address. -/
def Obligations.OnlyStoreWritesRam : Prop :=
  ∀ (s t : State) (a : Word), step s = .next t → t.ramRead a ≠ s.ramRead a →
    ∃ rs : Reg, s.decodeNext = .instr (.store a rs)

/-- R33: `H = 1` exactly in the Halted state, only HALT sets it, no instruction clears it, reset does. -/
def Obligations.OnlyHaltSetsTheHaltFlag : Prop :=
  (∀ s : State, s.h = true ↔ step s = .refused .halted) ∧
  (∀ s t : State, step s = .next t → (t.h = true ↔ s.decodeNext = .instr .halt)) ∧
  (∀ (i : Instr) (s t : State), exec i s = .next t → s.h = true → t.h = true) ∧
  (∀ s : State, (resetCore s).h = false)

/-! ## The cycle -/

/-- When the bytes at `pc` decode to an instruction, the step of a running core is that instruction's meaning, and when they are rejected it
is the error entry of the rejection, with `pc` at the last byte read (R171). -/
def Obligations.StepRunsTheDecodedInstruction : Prop :=
  ∀ (s : State) (n : Nat), s.h = false → s.err = none → entryLength s.cfg (s.romRead s.pc) ≤ n →
    (∀ i : Instr, decode s.cfg (s.fetchBytes n s.pc) = .instr i → step s = exec i s) ∧
    ∀ (why : DecodeReject) (last : Nat), decode s.cfg (s.fetchBytes n s.pc) = .reject why last →
      step s = .next (errorState s (DecodeReject.errKind why) (s.pc + BitVec.ofNat 16 last))

/-- When ROM holds an encoding of a well-formed instruction at `pc` (modulo 65536, R169), under any opcode byte the table
binds to its form, the step of a running core is that instruction's meaning. -/
def Obligations.StepRunsAnEncodedInstruction : Prop :=
  ∀ (s : State) (i : Instr) (row : TableRow), s.h = false → s.err = none →
    lookupOpcode s.cfg.table (s.romRead s.pc) = some row →
    row.mnemonic = i.mnemonic → row.signature = i.signature → i.wf s.cfg = true →
    s.pcFits (i.length - 1) = true →
    (∀ k (h : k < (encodeWith (s.romRead s.pc) i).length),
      s.romRead (s.pc + BitVec.ofNat 16 k) = (encodeWith (s.romRead s.pc) i)[k]) →
    step s = exec i s

/-- R160: a step is enabled exactly when `H = 0` and `err = none`; otherwise the core takes no step. -/
def Obligations.StepIsEnabledExactlyWhenRunning : Prop :=
  ∀ s : State,
    ((∃ t, step s = .next t) ↔ (s.h = false ∧ s.err = none)) ∧
    (s.h = true → step s = .refused .halted) ∧
    (s.h = false → s.err ≠ none → step s = .refused .stopped)

/-- R303: what an error entry changes, with the one exception of `PcWrapError` at the final advance, where the state holds what the
instruction writes under `PC_WRAP = wrap`, with `pc` at 0xFFFF (R171). -/
def Obligations.ErrorsArePrecise : Prop :=
  ∀ s t : State, step s = .next t → t.err ≠ none →
    ∃ k : ErrKind, t.err = some ⟨k, s.pc, s.romRead s.pc⟩ ∧ t.h = false ∧
      (t = errorState s k t.pc ∨
        (k = .pcWrap ∧ s.cfg.pcWrap = .fault ∧
          ∃ (i : Instr) (u : State), s.decodeNext = .instr i ∧
            exec i { s with cfg := { s.cfg with pcWrap := .wrap } } = .next u ∧ u.err = none ∧
            t = { u with cfg := s.cfg, pc := 0xFFFF, err := t.err }))

/-- The codes of the kinds, and the cause of each error with the `pc` it leaves (R300, R171). An `OperandRangeError` is raised at a register
slot of the entry, or at the high byte of the address of a form that R166 checks. -/
def Obligations.ErrorKindsHaveTheirCauses : Prop :=
  (ErrKind.code .decodeError = 1 ∧ ErrKind.code .operandRange = 2 ∧ ErrKind.code .unimplementedOpcode = 3 ∧
    ErrKind.code .stackOverflow = 4 ∧ ErrKind.code .stackUnderflow = 5 ∧ ErrKind.code .pcWrap = 6) ∧
  ∀ (s t : State) (e : ErrorRecord), step s = .next t → t.err = some e →
    match e.kind with
    | .decodeError => lookupOpcode s.cfg.table (s.romRead s.pc) = none ∧ t.pc = s.pc
    | .operandRange =>
      ∃ (row : TableRow) (last : Nat), lookupOpcode s.cfg.table (s.romRead s.pc) = some row ∧
        s.decodeNext = .reject .operandRange last ∧ t.pc = s.pc + BitVec.ofNat 16 last ∧
        ((∃ before after : Signature, row.signature = before ++ .register :: after ∧
            last = signatureSlots before + 1 ∧ 8 ≤ (s.romRead t.pc).toNat) ∨
          (((row.mnemonic = "LOAD" ∧ row.signature = [.register, .address] ∧ last = 3) ∨
              (row.mnemonic = "STORE" ∧ row.signature = [.address, .register] ∧ last = 2) ∨
              (s.cfg.jumpRamCheck = true ∧ row.mnemonic = "JUMP" ∧ row.signature = [.address] ∧ last = 2)) ∧
            s.cfg.ramSize ≤ (s.romRead t.pc).toNat * 256 + (s.romRead (t.pc - 1)).toNat))
    | .unimplementedOpcode =>
      ∃ row, lookupOpcode s.cfg.table (s.romRead s.pc) = some row ∧
        (∀ i : Instr, ¬ (i.mnemonic = row.mnemonic ∧ i.signature = row.signature)) ∧
        t.pc = s.pc + BitVec.ofNat 16 (signatureSlots row.signature)
    | .stackOverflow => (∃ rs, s.decodeNext = .instr (.push rs)) ∧ s.sp.val = 32 ∧ t.pc = s.pc + 1
    | .stackUnderflow => (∃ rd, s.decodeNext = .instr (.pop rd)) ∧ s.sp.val = 0 ∧ t.pc = s.pc + 1
    | .pcWrap => s.cfg.pcWrap = .fault ∧ t.pc = 0xFFFF

/-- The conservative settings of the parameters: `PC_WRAP = fault` (R169), where an instruction at 0xFFFF with an operand slot
raises `PcWrapError` before any effect, NOP raises it at its advance, and a MOV that ends at 0xFFFF keeps its write;
`JUMP_RAM_CHECK = true` (R166); `INC_ZERO_MODE = result` (U8). -/
def Obligations.ConservativeParameterReadings : Prop :=
  (∀ (s : State) (row : TableRow), s.h = false → s.err = none → s.cfg.pcWrap = .fault → s.pc = 0xFFFF →
    lookupOpcode s.cfg.table (s.romRead 0xFFFF) = some row →
    (row.signature ≠ [] ∨ (row.mnemonic = "NOP" ∧ row.signature = [])) →
    step s = .next (errorState s .pcWrap 0xFFFF)) ∧
  (∀ (rd : Reg) (imm : Byte) (s : State), s.cfg.pcWrap = .fault → s.pc = 0xFFFD →
    exec (.movImm rd imm) s = .next (errorState { s with x := s.x.set rd.val imm } .pcWrap 0xFFFF)) ∧
  (∀ (a : Word) (s : State), s.pcFits 2 = true → s.cfg.jumpRamCheck = true →
    exec (.jump a) s =
      .next (if a.toNat < s.cfg.ramSize then { s with pc := a } else errorState s .operandRange (s.pc + 2))) ∧
  (∀ (rd : Reg) (s : State), s.pcFits 2 = true → s.cfg.incZeroMode = .result →
    exec (.inc rd) s = .next { s with
      x := s.x.set rd.val (s.x[rd.val] + 1)
      z := decide (s.x[rd.val] + 1 = 0)
      c := decide (s.x[rd.val] = 0xFF)
      pc := s.pc + 2 })

/-- The three outcomes of decoding an opcode byte (R114), and the step where the operand phase fails: the error of its first failing slot, with
`pc` at the last byte read (R164, R166, R169, R305). -/
def Obligations.DecodingHasThreeOutcomes : Prop :=
  ∀ s : State, s.h = false → s.err = none →
    (lookupOpcode s.cfg.table (s.romRead s.pc) = none →
      step s = .next (errorState s .decodeError s.pc)) ∧
    (∀ (row : TableRow) (why : DecodeReject) (last : Nat), lookupOpcode s.cfg.table (s.romRead s.pc) = some row →
      loadOperands (addressBound s.cfg row.mnemonic row.signature) row.signature
        (s.fetchBytes (1 + signatureSlots row.signature) s.pc).tail 0 = .error (why, last) →
      step s = .next (errorState s (DecodeReject.errKind why) (s.pc + BitVec.ofNat 16 last))) ∧
    (∀ (row : TableRow) (ops : List Operand), lookupOpcode s.cfg.table (s.romRead s.pc) = some row →
      loadOperands (addressBound s.cfg row.mnemonic row.signature) row.signature
        (s.fetchBytes (1 + signatureSlots row.signature) s.pc).tail 0 = .ok ops →
      (∀ i : Instr, i.mnemonic = row.mnemonic → i.operands = ops → step s = exec i s) ∧
      ((∀ i : Instr, ¬ (i.mnemonic = row.mnemonic ∧ i.signature = row.signature)) →
        step s = .next (errorState s .unimplementedOpcode (s.pc + BitVec.ofNat 16 (signatureSlots row.signature)))))

/-! ## Encoding -/

/-- Decoding an encoding gives the instruction back, under every table that binds the opcode byte to its form, whatever bytes follow. -/
def Obligations.DecodeOfEncode : Prop :=
  ∀ (p : Config) (op : Byte) (row : TableRow) (i : Instr) (rest : List Byte),
    lookupOpcode p.table op = some row → row.mnemonic = i.mnemonic → row.signature = i.signature →
    i.wf p = true → decode p (encodeWith op i ++ rest) = .instr i

/-- Bytes that decode to an instruction are an encoding of it, and the instruction is well-formed. -/
def Obligations.EncodeOfDecode : Prop :=
  ∀ (p : Config) (bytes : List Byte) (i : Instr), decode p bytes = .instr i →
    i.wf p = true ∧
    ∃ (op : Byte) (row : TableRow) (rest : List Byte), bytes = encodeWith op i ++ rest ∧
      lookupOpcode p.table op = some row ∧ row.mnemonic = i.mnemonic ∧ row.signature = i.signature

/-- R105: the length of an instruction, known from its opcode byte alone. -/
def Obligations.InstructionLength : Prop :=
  (∀ (p : Config) (op : Byte) (row : TableRow), lookupOpcode p.table op = some row →
    entryLength p op = 1 + row.signature.count .register + row.signature.count .value
      + 2 * row.signature.count .address) ∧
  ∀ (op : Byte) (i : Instr), (encodeWith op i).length =
    1 + i.signature.count .register + i.signature.count .value + 2 * i.signature.count .address

/-- R102, R116: in any entry, defined form or not, a register slot byte of 8 or more ends the operand phase at that slot,
after the slots before it and before those after it. -/
def Obligations.RegisterSlotOutOfRange : Prop :=
  ∀ (bound : Option Nat) (before after : Signature) (bytes rest : List Byte) (b : Byte) (ops : List Operand),
    bytes.length = signatureSlots before → loadOperands bound before bytes 0 = .ok ops → 8 ≤ b.toNat →
    loadOperands bound (before ++ .register :: after) (bytes ++ b :: rest) 0
      = .error (.operandRange, signatureSlots before + 1)

/-- R104: an address operand is two slots, low byte first, and every 16-bit value is a legal encoding. -/
def Obligations.AddressOperandIsLittleEndian : Prop :=
  (∀ lo hi : Byte, ∃ a : Word, a.toNat = hi.toNat * 256 + lo.toNat ∧
    ∀ (sig : Signature) (bytes : List Byte) (ops : List Operand), loadOperands none sig bytes 2 = .ok ops →
      loadOperands none (.address :: sig) (lo :: hi :: bytes) 0 = .ok (.address a :: ops)) ∧
  ∀ a : Word, ∃ lo hi : Byte, Operand.bytes (.address a) = [lo, hi] ∧ a.toNat = hi.toNat * 256 + lo.toNat

/-- Words written out from the formats of R107 and the reference opcodes of R113 decode to their instructions, and an opcode byte of
0x0E or more to none (R115). -/
def Obligations.ReferenceWordsDecode : Prop :=
  decode referenceConfig [0x01, 0xFF, 0x00] = .instr (.jump 0x00FF) ∧
  decode referenceConfig [0x07, 0x00, 0x01] = .instr (.addReg 0 1) ∧
  decode referenceConfig [0x0A, 0x00, 0x03] = .instr (.movImm 0 0x03) ∧
  decode referenceConfig [0x0C, 0x03, 0x10, 0x00] = .instr (.load 3 0x0010) ∧
  decode referenceConfig [0x0D, 0x10, 0x00, 0x02] = .instr (.store 0x0010 2) ∧
  ∀ op : Byte, lookupOpcode referenceTable op = none ↔ 0x0E ≤ op.toNat

/-! ## Memory -/

/-- R63: a LOAD or STORE outside RAM is `OperandRangeError`, and no access is performed. -/
def Obligations.RamAccessIsBounded : Prop :=
  ∀ (r : Reg) (a : Word) (s : State), s.pcFits 3 = true → s.cfg.ramSize ≤ a.toNat →
    exec (.load r a) s = .next (errorState s .operandRange (s.pc + 3)) ∧
    exec (.store a r) s = .next (errorState s .operandRange (s.pc + 2))

/-- A LOAD returns the byte of the last STORE to its address, and a byte stored elsewhere does not disturb it (R66, R75). -/
def Obligations.LoadReturnsTheLastStore : Prop :=
  ∀ (s : State) (a b : Word) (rs rd : Reg), s.ram.wf → s.cfg.pcWrap = .wrap →
    a.toNat < s.cfg.ramSize → b.toNat < s.cfg.ramSize →
    ∃ t u : State, exec (.store a rs) s = .next t ∧ exec (.load rd b) t = .next u ∧ u.err = s.err ∧
      u.x[rd.val] = (if b = a then s.x[rs.val] else s.ramRead b)

/-! ## The stack engine -/

/-- R215: the LIFO law, 32 pushes, the 33rd, and a pop of the empty stack. -/
def Obligations.StackIsLifo : Prop :=
  (∀ (s : State) (v : Byte), s.sp.val < 32 →
    ∃ t u : State, s.stackPush v = some t ∧ t.stackPop = some (v, u) ∧ u.sp = s.sp) ∧
  (∀ (s : State) (vs : List Byte), s.sp.val = 0 →
    (vs.length ≤ 32 → ∃ t : State, vs.foldlM State.stackPush s = some t ∧ t.sp.val = vs.length) ∧
    (vs.length = 33 → vs.foldlM State.stackPush s = none)) ∧
  (∀ s : State, s.sp.val = 0 → s.stackPop = none)

/-- The pushed bytes come back in reverse order. -/
def Obligations.PopsReverseThePushes : Prop :=
  ∀ (s t : State) (vs : List Byte), vs.foldlM State.stackPush s = some t →
    ∃ u : State, vs.reverse.foldlM
      (fun (st : State) v => st.stackPop.bind fun r => if r.1 = v then some r.2 else none) t = some u ∧ u.sp = s.sp

/-! ## The ALU -/

/-- R230, and the laws of `add8` in R235. -/
def Obligations.AddEightBits : Prop :=
  (∀ a b : Byte, (add8 a b).1.toNat = (a.toNat + b.toNat) % 256 ∧
    ((add8 a b).2 = true ↔ 255 < a.toNat + b.toNat) ∧
    add8 a b = add8 b a ∧ add8 a 0 = (a, false)) ∧
  add8 250 10 = (4, true) ∧ add8 2 3 = (5, false) ∧ add8 255 1 = (0, true) ∧ add8 255 255 = (254, true)

/-! ## What cannot be observed -/

/-- No instruction reads `Z` or `C` (R32): two states that differ in them only stay so, step for step. -/
def Obligations.ZeroAndCarryAreNeverRead : Prop :=
  ∀ s t s' : State, SameButZeroCarry s t → step s = .next s' →
    ∃ t' : State, step t = .next t' ∧ SameButZeroCarry s' t'

/-- The stack entries at indices `>= sp` are never read (R41), so their unspecified reset contents (R42) cannot matter. -/
def Obligations.DeadStackEntriesAreNeverRead : Prop :=
  ∀ s t s' : State, SameButDeadStack s t → step s = .next s' →
    ∃ t' : State, step t = .next t' ∧ SameButDeadStack s' t'

/-! ## Reset, boot and the end of a run -/

/-- R340. -/
def Obligations.ResetRule : Prop :=
  ∀ s : State,
    (resetCore s).pc = 0x0000 ∧ (resetCore s).sp.val = 0 ∧
    (∀ r : Reg, (resetCore s).x[r.val] = s.cfg.regReset) ∧ referenceConfig.regReset = 0x00 ∧
    (resetCore s).z = false ∧ (resetCore s).c = false ∧ (resetCore s).h = false ∧ (resetCore s).err = none ∧
    (resetCore s).rom = s.rom ∧ (resetCore s).ram = s.ram ∧ (resetCore s).cfg = s.cfg ∧
    (∃ rest, (resetCore s).instrBytes = s.romRead 0x0000 :: rest) ∧ ∃ t, step (resetCore s) = .next t

/-- `State.reset` is a state of the invariant. Its ROM, RAM, table and `RAM_SIZE` are the model's choice (log entries 2 to 5). -/
def Obligations.ResetSatisfiesTheInvariant : Prop := State.reset.Inv

/-- Every step keeps the invariant, from every state that satisfies it. -/
def Obligations.StepKeepsTheInvariant : Prop :=
  ∀ s t : State, s.Inv → step s = .next t → t.Inv

/-- Booting refuses a table that binds an opcode byte twice (R110, U19), and with a legal configuration and buffers gives a running core at
the reset values that satisfies the invariant (R344); a core that boots was given those. The refusals of an illegal `RAM_SIZE` or buffer are
the model's (log entry 19). -/
def Obligations.BootGivesASoundRunningCore : Prop :=
  (∀ (p : Config) (rom ram : Memory), ¬ SyntaxTable.wf p.table →
    boot p rom ram = .error .syntaxTableLoadError) ∧
  (∀ (p : Config) (rom ram : Memory), p.wf → rom.wf → Memory.below romSize rom → ram.wf → Memory.below p.ramSize ram →
    ∃ s : State, boot p rom ram = .ok s) ∧
  ∀ (p : Config) (rom ram : Memory) (s : State), boot p rom ram = .ok s →
    s.Inv ∧ s.Enabled ∧ s.cfg = p ∧ s.rom = rom ∧ s.ram = ram ∧ s.pc = 0 ∧ s.sp.val = 0

/-- Loading a table description (R110, R118): where every opcode is a byte, every tag an operand type and no opcode stands twice, the
table has one row for each entry; every other description is a `SyntaxTableLoadError`. The shape of a description is the model's (log
entry 18). -/
def Obligations.LoadedTablesAreWellFormed : Prop :=
  ∀ d : TableDescription,
    if (∀ e ∈ d, ∀ v ∈ e.2, v.1 < 256 ∧ ∀ tag ∈ v.2, tag ∈ ["register", "value", "address"])
        ∧ (d.flatMap fun e => e.2.map Prod.fst).Nodup then
      ∃ t : SyntaxTable, loadTable d = .ok t ∧ SyntaxTable.wf t ∧ t.length = (d.map fun e => e.2.length).sum ∧
        ∀ e ∈ d, ∀ v ∈ e.2, ∃ row ∈ t, row.mnemonic = e.1 ∧ row.opcode.toNat = v.1 ∧
          v.2.map operandTypeOfTag = row.signature.map some
    else
      loadTable d = .error .syntaxTableLoadError

/-- R352, R44: a run has at most one end state, and no step follows it. -/
def Obligations.TheEndStateIsUnique : Prop :=
  ∀ s t u : State, EndsIn s t → EndsIn s u → t = u ∧ ∀ v, step t ≠ .next v

/-- A JUMP to its own address never ends (R192, R352): the step changes nothing, and the run has no end state. -/
def Obligations.JumpToItselfNeverEnds : Prop :=
  ∀ s : State, s.h = false → s.err = none → s.cfg.jumpRamCheck = false → s.pcFits 2 = true →
    s.decodeNext = .instr (.jump s.pc) → step s = .next s ∧ ∀ t, ¬ EndsIn s t

/-! ## The assembler -/

/-- R119 for the defined forms (R143): assembling the canonical text of an instruction, under every table that has its form, and decoding the bytes written at the cursor gives
the instruction back. -/
def Obligations.AssembleThenDecode : Prop :=
  ∀ (p : Config) (i : Instr) (line : Nat) (st : AsmState), p.wf → i.wf p = true → st.image.wf →
    (∃ row ∈ p.table, row.mnemonic = i.mnemonic ∧ row.signature = i.signature) →
    st.cursor + i.length ≤ 65536 →
    ∃ st' : AsmState, assembleLine p.table line st (canonicalText i) = .ok st' ∧
      st'.cursor = st.cursor + i.length ∧
      decode p ((List.range i.length).map fun k => st'.image.read (st.cursor + k)) = .instr i ∧
      ∀ a, (a < st.cursor ∨ st.cursor + i.length ≤ a) → st'.image.read a = st.image.read a

/-- R133: a register token is `r` and one digit 0 to 7, and nothing else. -/
def Obligations.RegisterToken : Prop :=
  ∀ (token : List Char) (n : Reg), parseRegister token = some n ↔
    token = ['r', ("01234567".toList)[n.val]'(by simp)]

/-- Which characters are hexadecimal digits, and the number each stands for: 0 to 15, in either case (R134). -/
def Sys2Proof.HexDigitValues : Prop :=
  (∀ ch : Char, (hexDigit ch).isSome = true ↔ ch ∈ "0123456789abcdefABCDEF".toList) ∧
  ∀ d : Fin 16, hexDigit ("0123456789abcdef".toList[d.val]'(by simp)) = some d.val ∧
    hexDigit ("0123456789ABCDEF".toList[d.val]'(by simp)) = some d.val

/-- R134: a value token is `#` and one or more hexadecimal digits of a number of at most 0xFF. -/
def Obligations.ValueToken : Prop :=
  HexDigitValues ∧
  ∀ (token : List Char) (v : Byte), parseValue token = some v ↔
    ∃ (digits : List Char) (ns : List Nat), token = '#' :: digits ∧ digits ≠ [] ∧
      digits.map hexDigit = ns.map some ∧ Nat.ofDigits 16 ns.reverse = v.toNat

/-- R135: an address token is `$` and one or more hexadecimal digits of a number of at most 0xFFFF, split into `lo` and `hi`. -/
def Obligations.AddressToken : Prop :=
  HexDigitValues ∧
  (∀ (token : List Char) (a : Word), parseAddress token = some a ↔
    ∃ (digits : List Char) (ns : List Nat), token = '$' :: digits ∧ digits ≠ [] ∧
      digits.map hexDigit = ns.map some ∧ Nat.ofDigits 16 ns.reverse = a.toNat) ∧
  ∀ a : Word, (loByte a).toNat = a.toNat % 256 ∧ (hiByte a).toNat = a.toNat / 256

/-- Directives and emission (R136, R137, R139, R141): `.text` sets the cursor and no byte, `.byte` writes one byte and leaves the
cursor, for every spelling of the operands and for the canonical line; and the bytes of an instruction are written at the cursor, which moves past
them, or are an `EncodingError` where they would pass 0xFFFF. -/
def Obligations.DirectivesAndOverflow : Prop :=
  ∀ (t : SyntaxTable) (err : AsmErrorKind → AsmError) (st : AsmState), st.image.wf →
    (∀ (tokens : List (List Char)) (a : Word), parseOperands [.address] tokens = some [.address a] →
      assembleStatement t err st ".text".toList tokens = .ok ⟨a.toNat, st.image⟩) ∧
    (∀ (tokens : List (List Char)) (a : Word) (v : Byte),
      parseOperands [.address, .value] tokens = some [.address a, .value v] →
      ∃ image : Memory, assembleStatement t err st ".byte".toList tokens = .ok ⟨st.cursor, image⟩ ∧
        image.read a.toNat = v ∧ ∀ b, b ≠ a.toNat → image.read b = st.image.read b) ∧
    (∀ (line : Nat) (a : Word) (v : Byte),
      assembleLine t line st (".text ".toList ++ operandText (.address a)) = .ok ⟨a.toNat, st.image⟩ ∧
      ∃ image : Memory, assembleLine t line st (".byte ".toList ++ operandsText [.address a, .value v])
          = .ok ⟨st.cursor, image⟩ ∧ image.read a.toNat = v ∧ ∀ b, b ≠ a.toNat → image.read b = st.image.read b) ∧
    (∀ bytes : List Byte, 65536 < st.cursor + bytes.length → emit err st bytes = .error (err .encodingError)) ∧
    ∀ (mnemonic : List Char) (tokens : List (List Char)) (bytes : List Byte),
      mnemonic ≠ ".text".toList → mnemonic ≠ ".byte".toList →
      matchVariant (variantsOf t mnemonic) tokens = some bytes →
      if st.cursor + bytes.length ≤ 65536 then
        ∃ image : Memory, assembleStatement t err st mnemonic tokens = .ok ⟨st.cursor + bytes.length, image⟩ ∧
          (∀ k (h : k < bytes.length), image.read (st.cursor + k) = bytes[k]) ∧
          ∀ b, (b < st.cursor ∨ st.cursor + bytes.length ≤ b) → image.read b = st.image.read b
      else
        assembleStatement t err st mnemonic tokens = .error (err .encodingError)

/-- R138: of the variants of a mnemonic, the one with the lowest opcode whose signature parses the tokens is assembled. -/
def Obligations.InstructionMatching : Prop :=
  ∀ (t : SyntaxTable) (mnemonic : List Char) (tokens : List (List Char)),
    (∀ bytes : List Byte, matchVariant (variantsOf t mnemonic) tokens = some bytes →
      ∃ row ∈ t, ∃ ops : List Operand, row.mnemonic.toList = mnemonic ∧
        parseOperands row.signature tokens = some ops ∧ bytes = row.opcode :: ops.flatMap Operand.bytes ∧
        ∀ other ∈ t, other.mnemonic.toList = mnemonic → other.opcode.toNat < row.opcode.toNat →
          parseOperands other.signature tokens = none) ∧
    (matchVariant (variantsOf t mnemonic) tokens = none ↔
      ∀ row ∈ t, row.mnemonic.toList = mnemonic → parseOperands row.signature tokens = none)

/-- R140: which assembly error a statement is, and that an error aborts the compile with the number of its line and its
tokens. That these are all the tokens of the line is the model's choice (log entry 17). -/
def Obligations.AssemblyErrors : Prop :=
  (∀ (t : SyntaxTable) (err : AsmErrorKind → AsmError) (st : AsmState) (mnemonic : List Char) (tokens : List (List Char)),
    (mnemonic = ".text".toList → (∀ a, parseOperands [.address] tokens ≠ some [.address a]) →
      assembleStatement t err st mnemonic tokens = .error (err .syntaxError)) ∧
    (mnemonic = ".byte".toList → (∀ a v, parseOperands [.address, .value] tokens ≠ some [.address a, .value v]) →
      assembleStatement t err st mnemonic tokens = .error (err .syntaxError)) ∧
    (mnemonic ≠ ".text".toList → mnemonic ≠ ".byte".toList →
      ((∀ row ∈ t, row.mnemonic.toList ≠ mnemonic) →
        assembleStatement t err st mnemonic tokens = .error (err .syntaxError)) ∧
      ((∃ row ∈ t, row.mnemonic.toList = mnemonic) →
        (∀ row ∈ t, row.mnemonic.toList = mnemonic → parseOperands row.signature tokens = none) →
        assembleStatement t err st mnemonic tokens = .error (err .encodingError)))) ∧
  ∀ (t : SyntaxTable) (done : List (List Char)) (line : List Char) (rest : List (List Char)) (st st' : AsmState) (e : AsmError),
    assembleLines t 1 st done = .ok st' → assembleLine t (done.length + 1) st' line = .error e →
    assembleLines t 1 st (done ++ line :: rest) = .error e ∧ e.line = done.length + 1 ∧
      e.tokens = tokensOf (stripComment line)
end

