-- ==== Sys2Proof/Laws/Decode.lean ====
section
/-!
SUPPORT. The lemmas of the decoder and the encoder: what the operand phase can do, which bytes it consumes, and how the forms, their
operands and their bytes fit together (30_encoding.md).
-/

namespace Sys2Proof

/-! ## Bytes and operands -/

theorem addressOfBytes_toNat (lo hi : Byte) : (addressOfBytes lo hi).toNat = hi.toNat * 256 + lo.toNat := by
  have hlo := lo.isLt
  simp only [addressOfBytes, BitVec.toNat_append]
  rw [Nat.shiftLeft_eq, ← Nat.shiftLeft_eq, ← Nat.shiftLeft_add_eq_or_of_lt hlo, Nat.shiftLeft_eq]

@[simp] theorem loByte_addressOfBytes (lo hi : Byte) : loByte (addressOfBytes lo hi) = lo := by
  apply BitVec.eq_of_toNat_eq
  have h1 := lo.isLt
  have h2 := hi.isLt
  simp only [loByte, BitVec.extractLsb'_toNat, addressOfBytes_toNat, Nat.shiftRight_zero]
  omega

@[simp] theorem hiByte_addressOfBytes (lo hi : Byte) : hiByte (addressOfBytes lo hi) = hi := by
  apply BitVec.eq_of_toNat_eq
  have h1 := lo.isLt
  have h2 := hi.isLt
  simp only [hiByte, BitVec.extractLsb'_toNat, addressOfBytes_toNat, Nat.shiftRight_eq_div_pow]
  omega

theorem loByte_toNat (a : Word) : (loByte a).toNat = a.toNat % 256 := by
  simp [loByte, BitVec.extractLsb'_toNat]

theorem hiByte_toNat (a : Word) : (hiByte a).toNat = a.toNat / 256 := by
  have := a.isLt
  simp only [hiByte, BitVec.extractLsb'_toNat, Nat.shiftRight_eq_div_pow]
  omega

@[simp] theorem addressOfBytes_bytes (a : Word) : addressOfBytes (loByte a) (hiByte a) = a := by
  apply BitVec.eq_of_toNat_eq
  rw [addressOfBytes_toNat, loByte_toNat, hiByte_toNat]
  omega

/-- The slot byte of a register reads back as its index (R102). -/
@[simp] theorem registerSlot_toNat (r : Reg) : (BitVec.ofNat 8 r.val).toNat = r.val := by
  have := r.isLt
  simp only [BitVec.toNat_ofNat]
  omega

@[simp] theorem registerSlot_of_lt (b : Byte) (h : b.toNat < 8) :
    BitVec.ofNat 8 (⟨b.toNat, h⟩ : Reg).val = b := by
  simp

/-- An operand has as many bytes as its type has slots (R163). -/
@[simp] theorem Operand.bytes_length (op : Operand) : op.bytes.length = op.type.slots := by
  cases op <;> rfl

theorem operandsBytes_length (ops : List Operand) :
    (ops.flatMap Operand.bytes).length = signatureSlots (ops.map Operand.type) := by
  induction ops with
  | nil => rfl
  | cons op ops ih =>
    simp only [List.flatMap_cons, List.length_append, Operand.bytes_length, ih, signatureSlots, List.map_cons,
      List.sum_cons]

@[simp] theorem signatureSlots_cons (t : OperandType) (sig : Signature) :
    signatureSlots (t :: sig) = t.slots + signatureSlots sig := by
  simp [signatureSlots]

@[simp] theorem signatureSlots_nil : signatureSlots [] = 0 := rfl

/-- An encoding is as long as its instruction (R105). -/
theorem encodeWith_length (op : Byte) (i : Instr) : (encodeWith op i).length = i.length := by
  simp only [encodeWith, List.length_cons, operandsBytes_length, Instr.length, Instr.signature]
  omega

/-! ## The operand phase -/

/-- An operand that passes the operand phase under a bound: only addresses are bounded. -/
def Operand.inBound (bound : Option Nat) : Operand → Bool
  | .register _ => true
  | .value _ => true
  | .address a => addressInBound bound a

/-- The bytes of in-bound operands, followed by anything, load as those operands (R164 to R166). -/
theorem loadOperands_of_bytes (bound : Option Nat) (ops : List Operand) (rest : List Byte) (last : Nat)
    (h : ∀ op ∈ ops, op.inBound bound = true) :
    loadOperands bound (ops.map Operand.type) (ops.flatMap Operand.bytes ++ rest) last = .ok ops := by
  induction ops generalizing last with
  | nil => rfl
  | cons op ops ih =>
    have ih' := fun l => ih l fun o ho => h o (List.mem_cons_of_mem _ ho)
    have hop := h op (by simp)
    cases op with
    | register r =>
      have hr := r.isLt
      have hidx : (⟨(BitVec.ofNat 8 r.val).toNat, by rw [registerSlot_toNat]; exact hr⟩ : Reg) = r :=
        Fin.ext (registerSlot_toNat r)
      simp only [List.map_cons, Operand.type, List.flatMap_cons, Operand.bytes, List.cons_append, List.nil_append,
        loadOperands, registerSlot_toNat, hr, dif_pos, ih', Except.map, Fin.eta]
    | value v =>
      simp only [List.map_cons, Operand.type, List.flatMap_cons, Operand.bytes, List.cons_append, List.nil_append,
        loadOperands, ih', Except.map]
    | address a =>
      simp only [Operand.inBound] at hop
      simp only [List.map_cons, Operand.type, List.flatMap_cons, Operand.bytes, List.cons_append, List.nil_append,
        loadOperands, addressOfBytes_bytes, hop, if_true, ih', Except.map]

/-- What a successful operand phase says: the operands have the signature's types, they are in bound, and their bytes are the
bytes consumed. -/
theorem loadOperands_ok {bound : Option Nat} {sig : Signature} {bytes : List Byte} {last : Nat} {ops : List Operand}
    (h : loadOperands bound sig bytes last = .ok ops) :
    ops.map Operand.type = sig ∧ (∀ op ∈ ops, op.inBound bound = true) ∧
      ∃ rest, bytes = ops.flatMap Operand.bytes ++ rest := by
  induction sig generalizing bytes last ops with
  | nil =>
    simp only [loadOperands, Except.ok.injEq] at h
    subst h
    exact ⟨rfl, by simp, bytes, by simp⟩
  | cons t sig ih =>
    cases t with
    | register =>
      cases bytes with
      | nil => simp [loadOperands] at h
      | cons b bytes =>
        simp only [loadOperands] at h
        split at h
        · rename_i hb
          cases hrec : loadOperands bound sig bytes (last + 1) with
          | error e => simp [hrec, Except.map] at h
          | ok ops' =>
            simp only [hrec, Except.map, Except.ok.injEq] at h
            subst h
            obtain ⟨h1, h2, rest, h3⟩ := ih hrec
            refine ⟨by simp [h1, Operand.type], ?_, rest, ?_⟩
            · simpa [Operand.inBound] using h2
            · simp [Operand.bytes, h3]
        · simp at h
    | value =>
      cases bytes with
      | nil => simp [loadOperands] at h
      | cons b bytes =>
        simp only [loadOperands] at h
        cases hrec : loadOperands bound sig bytes (last + 1) with
        | error e => simp [hrec, Except.map] at h
        | ok ops' =>
          simp only [hrec, Except.map, Except.ok.injEq] at h
          subst h
          obtain ⟨h1, h2, rest, h3⟩ := ih hrec
          refine ⟨by simp [h1, Operand.type], ?_, rest, ?_⟩
          · simpa [Operand.inBound] using h2
          · simp [Operand.bytes, h3]
    | address =>
      match bytes, h with
      | [], h => simp [loadOperands] at h
      | [_], h => simp [loadOperands] at h
      | lo :: hi :: bytes, h =>
        simp only [loadOperands] at h
        split at h
        · rename_i hb
          cases hrec : loadOperands bound sig bytes (last + 2) with
          | error e => simp [hrec, Except.map] at h
          | ok ops' =>
            simp only [hrec, Except.map, Except.ok.injEq] at h
            subst h
            obtain ⟨h1, h2, rest, h3⟩ := ih hrec
            refine ⟨by simp [h1, Operand.type], ?_, rest, ?_⟩
            · simpa [Operand.inBound, hb] using h2
            · simp [Operand.bytes, h3]
        · simp at h

/-- The operand phase reads the slots of the signature and nothing behind them (R105). -/
theorem loadOperands_append (bound : Option Nat) {sig : Signature} {bytes : List Byte} (more : List Byte) (last : Nat)
    (hlen : signatureSlots sig ≤ bytes.length) :
    loadOperands bound sig (bytes ++ more) last = loadOperands bound sig bytes last := by
  induction sig generalizing bytes last with
  | nil => simp [loadOperands]
  | cons t sig ih =>
    rw [signatureSlots_cons] at hlen
    cases t with
    | register =>
      match bytes, hlen with
      | [], hlen => simp [OperandType.slots] at hlen
      | b :: bytes, hlen =>
        simp [OperandType.slots] at hlen
        simp only [List.cons_append, loadOperands, ih (last + 1) (show signatureSlots sig ≤ bytes.length by omega)]
    | value =>
      match bytes, hlen with
      | [], hlen => simp [OperandType.slots] at hlen
      | b :: bytes, hlen =>
        simp [OperandType.slots] at hlen
        simp only [List.cons_append, loadOperands, ih (last + 1) (show signatureSlots sig ≤ bytes.length by omega)]
    | address =>
      match bytes, hlen with
      | [], hlen => simp [OperandType.slots] at hlen
      | [_], hlen => simp [OperandType.slots] at hlen; omega
      | lo :: hi :: bytes, hlen =>
        simp [OperandType.slots] at hlen
        simp only [List.cons_append, loadOperands, ih (last + 2) (show signatureSlots sig ≤ bytes.length by omega)]

/-! ## Forms -/

/-- The form with a mnemonic and operands is the instruction with that mnemonic and those operands (R112). -/
theorem instrOf_eq_some {mnemonic : String} {ops : List Operand} {i : Instr} :
    instrOf mnemonic ops = some i ↔ i.mnemonic = mnemonic ∧ i.operands = ops := by
  constructor
  · intro h
    unfold instrOf at h
    split at h <;> first | (cases h; exact ⟨rfl, rfl⟩) | cases h
  · rintro ⟨rfl, rfl⟩
    cases i <;> rfl

/-- Every instruction is the form with its own mnemonic and operands. -/
@[simp] theorem instrOf_self (i : Instr) : instrOf i.mnemonic i.operands = some i :=
  instrOf_eq_some.2 ⟨rfl, rfl⟩

/-- An instruction is well-formed exactly when its operands pass the operand phase of its own entry (R117, R166). -/
theorem wf_iff_inBound (p : Config) (i : Instr) :
    i.wf p = true ↔ ∀ op ∈ i.operands, op.inBound (addressBound p i.mnemonic i.signature) = true := by
  cases i <;>
    simp [Instr.wf, Instr.operands, Instr.signature, Instr.mnemonic, Operand.inBound, addressBound, addressInBound,
      Operand.type]
  rename_i a
  cases p.jumpRamCheck <;> simp

/-- The types of the operands decide whether there is a form: a mnemonic that has a form with a signature has one for all
operands of that signature. -/
theorem instrOf_isSome_of_types {ops : List Operand} (i : Instr) (hs : i.signature = ops.map Operand.type) :
    (instrOf i.mnemonic ops).isSome = true := by
  cases i <;> rcases ops with _ | ⟨o1, _ | ⟨o2, _ | ⟨o3, ops⟩⟩⟩ <;>
    simp [Instr.signature, Instr.operands, Operand.type] at hs <;>
    first | rfl | (cases o1 <;> first | rfl | (simp at hs; done) | (cases o2 <;> first | rfl | simp at hs))

/-- There is no form for the operands exactly when the mnemonic and the signature are no defined form (R112, R167). -/
theorem instrOf_eq_none {mnemonic : String} {ops : List Operand} :
    instrOf mnemonic ops = none ↔ ∀ i : Instr, ¬ (i.mnemonic = mnemonic ∧ i.signature = ops.map Operand.type) := by
  constructor
  · rintro h i ⟨rfl, hs⟩
    have := instrOf_isSome_of_types i hs
    simp [h] at this
  · intro h
    cases hi : instrOf mnemonic ops with
    | none => rfl
    | some i =>
      obtain ⟨hm, ho⟩ := instrOf_eq_some.1 hi
      exact absurd ⟨hm, by rw [Instr.signature, ho]⟩ (h i)

/-- In a well-formed table every entry is the one its opcode byte finds (R110, R111). -/
theorem lookupOpcode_of_mem (t : SyntaxTable) (h : SyntaxTable.wf t) (r : TableRow) (hr : r ∈ t) : lookupOpcode t r.opcode = some r := by
  induction t with
  | nil => simp at hr
  | cons q t ih =>
    simp only [SyntaxTable.wf, List.map_cons, List.nodup_cons] at h
    unfold lookupOpcode
    rw [List.find?_cons]
    rcases List.mem_cons.1 hr with rfl | hr
    · simp
    · have : q.opcode ≠ r.opcode := fun he => h.1 (by rw [he]; exact List.mem_map_of_mem hr)
      have hb : (q.opcode == r.opcode) = false := by simpa using this
      rw [hb]; exact ih h.2 hr

end Sys2Proof
end

