-- ==== Sys2Proof/Laws/Memory.lean ====
section
/-!
SUPPORT. The laws of byte memories: read after write, and every operation keeps the canonical form and the bound of the addresses (R65 to R67).
-/

namespace Sys2Proof.Machine

theorem Memory.wf_nil : Memory.wf ([] : Memory) := by simp [Memory.wf]

theorem Memory.below_nil (n : Nat) : Memory.below n ([] : Memory) := by simp [Memory.below]

/-- A cell of the memory after a write is the written cell or was there before. -/
theorem Memory.mem_write {m : Memory} {a : Nat} {v : Byte} {cell : Host.Cell} (h : cell ∈ Memory.write m a v) :
    (cell = (a, v) ∧ v ≠ unlistedByte) ∨ cell ∈ m := by
  induction m with
  | nil =>
    simp only [Memory.write, Memory.cons] at h
    split at h <;> simp_all
  | cons hd m ih =>
    obtain ⟨k, b⟩ := hd
    simp only [Memory.write, Memory.cons] at h
    split at h
    · split at h <;> simp_all
    · split at h
      · split at h
        · exact .inr (List.mem_cons_of_mem _ h)
        · rcases List.mem_cons.1 h with h | h <;> simp_all
      · rcases List.mem_cons.1 h with h | h
        · exact .inr (by simp [h])
        · rcases ih h with h | h <;> simp_all

/-- A write keeps the canonical form. -/
theorem Memory.wf_write {m : Memory} (hwf : Memory.wf m) (a : Nat) (v : Byte) : Memory.wf (Memory.write m a v) := by
  induction m with
  | nil =>
    simp only [Memory.write, Memory.cons]
    split <;> simp_all [Memory.wf]
  | cons hd m ih =>
    obtain ⟨k, b⟩ := hd
    obtain ⟨hp, hne⟩ := hwf
    rw [List.pairwise_cons] at hp
    have htail : Memory.wf m := ⟨hp.2, fun cell hc => hne cell (List.mem_cons_of_mem _ hc)⟩
    have hfull : Memory.wf ((k, b) :: m) := ⟨List.pairwise_cons.2 hp, hne⟩
    simp only [Memory.write, Memory.cons]
    split
    · rename_i hlt
      split
      · exact hfull
      · rename_i hv
        refine ⟨List.pairwise_cons.2 ⟨?_, hfull.1⟩, ?_⟩
        · intro cell hc
          rcases List.mem_cons.1 hc with hc | hc
          · simpa [hc] using hlt
          · have := hp.1 cell hc
            simp only at this ⊢
            omega
        · intro cell hc
          rcases List.mem_cons.1 hc with hc | hc
          · simpa [hc] using hv
          · exact hne cell hc
    · rename_i hge
      split
      · rename_i heq
        split
        · exact htail
        · rename_i hv
          refine ⟨List.pairwise_cons.2 ⟨?_, hp.2⟩, ?_⟩
          · intro cell hc
            simpa [heq] using hp.1 cell hc
          · intro cell hc
            rcases List.mem_cons.1 hc with hc | hc
            · simpa [hc] using hv
            · exact hne cell (List.mem_cons_of_mem _ hc)
      · rename_i hneq
        refine ⟨List.pairwise_cons.2 ⟨?_, (ih htail).1⟩, ?_⟩
        · intro cell hc
          rcases Memory.mem_write hc with ⟨hc, -⟩ | hc
          · simp only [hc]
            omega
          · exact hp.1 cell hc
        · intro cell hc
          rcases List.mem_cons.1 hc with hc | hc
          · exact hne cell (by simp [hc])
          · exact (ih htail).2 cell hc

/-- A write below `n` keeps the cells below `n`. -/
theorem Memory.below_write {n : Nat} {m : Memory} (hb : Memory.below n m) {a : Nat} (ha : a < n) (v : Byte) :
    Memory.below n (Memory.write m a v) := by
  intro cell hc
  rcases Memory.mem_write hc with ⟨hc, -⟩ | hc
  · simpa [hc] using ha
  · exact hb cell hc

/-- An address below every listed cell reads as unlisted. -/
theorem Memory.read_of_forall_ne {m : Memory} {a : Nat} (h : ∀ cell ∈ m, cell.1 ≠ a) : Memory.read m a = unlistedByte := by
  induction m with
  | nil => rfl
  | cons hd m ih =>
    obtain ⟨k, b⟩ := hd
    have hk : a ≠ k := fun he => h (k, b) (by simp) he.symm
    simp only [Memory.read, if_neg hk]
    exact ih fun cell hc => h cell (List.mem_cons_of_mem _ hc)

/-- The address written reads the byte written, in a memory of canonical form (R66, R67). -/
theorem Memory.read_write_same {m : Memory} (hwf : Memory.wf m) (a : Nat) (v : Byte) :
    Memory.read (Memory.write m a v) a = v := by
  induction m with
  | nil =>
    simp only [Memory.write, Memory.cons]
    split <;> simp_all [Memory.read]
  | cons hd m ih =>
    obtain ⟨k, b⟩ := hd
    obtain ⟨hp, hne⟩ := hwf
    rw [List.pairwise_cons] at hp
    have htail : Memory.wf m := ⟨hp.2, fun cell hc => hne cell (List.mem_cons_of_mem _ hc)⟩
    simp only [Memory.write, Memory.cons]
    split
    · rename_i hlt
      split
      · rename_i hv
        rw [hv]
        apply Memory.read_of_forall_ne
        intro cell hc
        rcases List.mem_cons.1 hc with hc | hc
        · simp only [hc]; omega
        · have := hp.1 cell hc
          simp only at this
          omega
      · simp [Memory.read]
    · split
      · rename_i heq
        split
        · rename_i hv
          rw [hv]
          apply Memory.read_of_forall_ne
          intro cell hc
          have := hp.1 cell hc
          simp only at this
          omega
        · simp [Memory.read]
      · rename_i hneq
        simp only [Memory.read, if_neg hneq]
        exact ih htail

/-- Every other address reads as before (R67). -/
theorem Memory.read_write_other (m : Memory) {a b : Nat} (hne : b ≠ a) (v : Byte) :
    Memory.read (Memory.write m a v) b = Memory.read m b := by
  induction m with
  | nil =>
    simp only [Memory.write, Memory.cons]
    split <;> simp [Memory.read, hne]
  | cons hd m ih =>
    obtain ⟨k, c⟩ := hd
    simp only [Memory.write, Memory.cons]
    split
    · split
      · rfl
      · simp [Memory.read, hne]
    · split
      · rename_i heq
        subst heq
        split <;> simp [Memory.read, hne]
      · simp only [Memory.read, ih]

/-- Writing bytes in a row keeps the canonical form. -/
theorem Memory.wf_writeBytes {m : Memory} (hwf : Memory.wf m) (a : Nat) (bytes : List Byte) :
    Memory.wf (Memory.writeBytes m a bytes) := by
  induction bytes generalizing m a with
  | nil => exact hwf
  | cons b bytes ih => exact ih (Memory.wf_write hwf a b) (a + 1)

/-- Bytes written in a row below `n` keep the cells below `n`. -/
theorem Memory.below_writeBytes {n : Nat} {m : Memory} (hb : Memory.below n m) {a : Nat} {bytes : List Byte}
    (ha : a + bytes.length ≤ n) : Memory.below n (Memory.writeBytes m a bytes) := by
  induction bytes generalizing m a with
  | nil => exact hb
  | cons b bytes ih =>
    simp only [List.length_cons] at ha
    exact ih (Memory.below_write hb (by omega) b) (by omega)

/-- Outside the bytes written in a row every address reads as before. -/
theorem Memory.read_writeBytes_other (m : Memory) {a c : Nat} (bytes : List Byte)
    (hc : c < a ∨ a + bytes.length ≤ c) : Memory.read (Memory.writeBytes m a bytes) c = Memory.read m c := by
  induction bytes generalizing m a with
  | nil => rfl
  | cons b bytes ih =>
    simp only [List.length_cons] at hc
    simp only [Memory.writeBytes]
    rw [ih _ (by omega), Memory.read_write_other _ (by omega)]

/-- Bytes written in a row read back. -/
theorem Memory.read_writeBytes {m : Memory} (hwf : Memory.wf m) (a : Nat) (bytes : List Byte) (k : Nat)
    (hk : k < bytes.length) : Memory.read (Memory.writeBytes m a bytes) (a + k) = bytes[k] := by
  induction bytes generalizing m a k with
  | nil => exact absurd hk (Nat.not_lt_zero _)
  | cons b bytes ih =>
    cases k with
    | zero =>
      simp only [Memory.writeBytes, Nat.add_zero, List.getElem_cons_zero]
      rw [Memory.read_writeBytes_other _ _ (by omega), Memory.read_write_same hwf]
    | succ k =>
      simp only [List.length_cons] at hk
      simp only [Memory.writeBytes, List.getElem_cons_succ]
      have := ih (Memory.wf_write hwf a b) (a + 1) k (by omega)
      rwa [Nat.add_assoc, Nat.add_comm 1 k] at this

end Sys2Proof.Machine
end

