-- ==== Sys2Proof/Laws/Assembler.lean ====
section
/-!
SUPPORT. What the assembler's functions over characters and tokens do, each said once (30_encoding.md section 4).
-/

namespace Sys2Proof.Machine

/-! ## Hexadecimal numbers -/

/-- Appending digits to a number is the number in base 16 (R134, R135). -/
theorem hexDigits_iff (ds : List Char) (acc n : Nat) : hexDigits acc ds = some n ↔ ∃ ns : List Nat, ds.map hexDigit = ns.map some ∧ n = acc * 16 ^ ds.length + Nat.ofDigits 16 ns.reverse := by
  induction ds generalizing acc with
  | nil =>
    simp only [hexDigits, Option.some.injEq, List.map_nil]
    constructor
    · rintro rfl; exact ⟨[], rfl, by simp⟩
    · rintro ⟨ns, h1, rfl⟩; cases ns <;> simp_all
  | cons d ds ih =>
    simp only [hexDigits]
    cases hd : hexDigit d with
    | none =>
      simp
      intro ns h
      cases ns with
      | nil => simp at h
      | cons m ns => simp [hd] at h
    | some v =>
      simp only [ih]
      constructor
      · rintro ⟨ns, h1, rfl⟩
        refine ⟨v :: ns, by simp [hd, h1], ?_⟩
        have hl : ns.length = ds.length := by have := congrArg List.length h1; simpa using this.symm
        simp [Nat.ofDigits_append, hl, pow_succ]; ring
      · rintro ⟨ns, h1, h2⟩
        cases ns with
        | nil => simp at h1
        | cons m ns =>
          simp [hd] at h1
          obtain ⟨rfl, h1⟩ := h1
          refine ⟨ns, h1, ?_⟩
          have hl : ns.length = ds.length := by have := congrArg List.length h1; simpa using this.symm
          rw [h2]
          simp [Nat.ofDigits_append, hl, pow_succ]; ring

/-- A hexadecimal number is one or more digits (R134, R135). -/
theorem hexNumber_iff (ds : List Char) (n : Nat) : hexNumber ds = some n ↔ ds ≠ [] ∧ ∃ ns : List Nat, ds.map hexDigit = ns.map some ∧ Nat.ofDigits 16 ns.reverse = n := by
  unfold hexNumber
  by_cases h : ds = []
  · simp [h]
  · simp only [h, if_false, hexDigits_iff]
    simp [h, eq_comm (a := n)]

/-- The digits the canonical text uses are read back, and separate nothing. -/
theorem hexChar_ok : ∀ d : Fin 16, isSeparator (hexChar d.val) = false ∧ hexChar d.val ≠ ';' ∧ hexDigit (hexChar d.val) = some d.val ∧ (hexChar d.val).isWhitespace = false := by decide

/-- The two digits of a byte read back as the byte. -/
theorem hexNumber_hexOfByte (b : Byte) : hexNumber (hexOfByte b) = some b.toNat := by
  have h1 : b.toNat / 16 < 16 := by have := b.isLt; omega
  have h2 : b.toNat % 16 < 16 := by omega
  have e1 := (hexChar_ok ⟨_, h1⟩).2.2.1
  have e2 := (hexChar_ok ⟨_, h2⟩).2.2.1
  simp only at e1 e2
  simp [hexNumber, hexOfByte, hexDigits, e1, e2]; omega

/-- The four digits of an address read back as the address. -/
theorem hexNumber_hexOfWord (a : Word) : hexNumber (hexOfByte (hiByte a) ++ hexOfByte (loByte a)) = some a.toNat := by
  have g : ∀ b : Byte, ∃ x y, hexDigit (hexChar (b.toNat/16)) = some x ∧ hexDigit (hexChar (b.toNat%16)) = some y ∧ x * 16 + y = b.toNat := by
    intro b
    have h1 : b.toNat / 16 < 16 := by have := b.isLt; omega
    have h2 : b.toNat % 16 < 16 := by omega
    exact ⟨_, _, (hexChar_ok ⟨_, h1⟩).2.2.1, (hexChar_ok ⟨_, h2⟩).2.2.1, by simp only; omega⟩
  obtain ⟨x, y, e1, e2, e3⟩ := g (hiByte a)
  obtain ⟨u, v, e4, e5, e6⟩ := g (loByte a)
  rw [hiByte_toNat] at e3
  rw [loByte_toNat] at e6
  simp [hexNumber, hexOfByte, hexDigits, e1, e2, e4, e5]; omega

/-! ## Tokens -/

/-- A character run that is one token: not empty, with no separator and no comment mark in it. -/
def IsToken (token : List Char) : Prop := token ≠ [] ∧ ∀ ch ∈ token, isSeparator ch = false ∧ ch ≠ ';'

/-- A token before a separator is the first token (R131). -/
theorem tokensOf_plain (tok rest : List Char) (ch : Char) (hp : IsToken tok) (hs : isSeparator ch = true) : tokensOf (tok ++ ch :: rest) = tok :: tokensOf (ch :: rest) := by
  obtain ⟨hne, hall⟩ := hp
  induction tok with
  | nil => exact absurd rfl hne
  | cons a tok ih =>
    cases tok with
    | nil =>
      have := (hall a (by simp)).1
      simp [tokensOf, this, hs]
    | cons b tok =>
      have ha := (hall a (by simp)).1
      have hb := (hall b (by simp)).1
      have := ih (by simp) (fun c hc => hall c (List.mem_cons_of_mem _ hc))
      simp only [List.cons_append] at this ⊢
      rw [tokensOf, if_neg (by simp [ha]), if_neg (by simp [hb]), this]

/-- A token at the end of the text is the last one (R131). -/
theorem tokensOf_plain_end (tok : List Char) (hp : IsToken tok) : tokensOf tok = [tok] := by
  obtain ⟨hne, hall⟩ := hp
  induction tok with
  | nil => exact absurd rfl hne
  | cons a tok ih =>
    cases tok with
    | nil => have := (hall a (by simp)).1; simp [tokensOf, this]
    | cons b tok =>
      have ha := (hall a (by simp)).1
      have hb := (hall b (by simp)).1
      have := ih (by simp) (fun c hc => hall c (List.mem_cons_of_mem _ hc))
      rw [tokensOf, if_neg (by simp [ha]), if_neg (by simp [hb]), this]

/-- A separator before more text is dropped (R131). -/
theorem tokensOf_sep (ch next : Char) (rest : List Char) (h : isSeparator ch = true) : tokensOf (ch :: next :: rest) = tokensOf (next :: rest) := by
  simp [tokensOf, h]

/-- The canonical token of an operand parses as its type and as no other (R133 to R135, R143). -/
theorem parseOperand_operandText (op : Operand) (t : OperandType) : parseOperand t (operandText op) = if t = op.type then some op else none := by
  cases op with
  | register r => cases t <;> revert r <;> decide
  | value v =>
    have hv := v.isLt
    cases t with
    | value => simp [parseOperand, parseValue, operandText, hexNumber_hexOfByte, Operand.type]; omega
    | register =>
      simp [parseOperand, operandText, Operand.type]
      unfold parseRegister; split <;> simp_all
    | address => simp [parseOperand, parseAddress, operandText, Operand.type]
  | address v =>
    have hv := v.isLt
    cases t with
    | address => simp [parseOperand, parseAddress, operandText, hexNumber_hexOfWord, Operand.type]; omega
    | register =>
      simp [parseOperand, operandText, Operand.type]
      unfold parseRegister; split <;> simp_all
    | value => simp [parseOperand, parseValue, operandText, Operand.type]

/-- Canonical tokens parse under the signature of their operands and under no other (R138, R143). -/
theorem parseOperands_operandText (sig : Signature) (ops : List Operand) : parseOperands sig (ops.map operandText) = if sig = ops.map Operand.type then some ops else none := by
  induction sig generalizing ops with
  | nil => cases ops <;> simp [parseOperands]
  | cons t sig ih =>
    cases ops with
    | nil => simp [parseOperands]
    | cons op ops =>
      simp only [List.map_cons, parseOperands, parseOperand_operandText, ih]
      by_cases h1 : t = op.type <;> by_cases h2 : sig = ops.map Operand.type <;> simp [h1, h2]

/-! ## Variants -/

/-- The variants of a mnemonic are the entries that stand under it (R138). -/
theorem mem_variantsOf (t : SyntaxTable) (mn : List Char) (r : TableRow) : r ∈ variantsOf t mn ↔ r ∈ t ∧ r.mnemonic.toList = mn := by
  simp [variantsOf, List.mem_insertionSort]

/-- They stand in ascending opcode order (R138). -/
theorem variantsOf_sorted (t : SyntaxTable) (m) : (variantsOf t m).Pairwise (fun a b => a.opcode.toNat ≤ b.opcode.toNat) := by
  unfold variantsOf
  have : Std.Total (fun a b : TableRow => a.opcode.toNat ≤ b.opcode.toNat) := ⟨fun a b => Nat.le_total _ _⟩
  have : IsTrans TableRow (fun a b : TableRow => a.opcode.toNat ≤ b.opcode.toNat) := ⟨fun a b c => Nat.le_trans⟩
  exact List.pairwise_insertionSort _ _

end Sys2Proof.Machine
end

