-- ==== Sys2Proof/Laws/State.lean ====
section
/-!
SUPPORT. What every named update of the state does to every field, true by rfl, and what a register reads after a register write. No later proof unfolds a record update.
-/

namespace Sys2Proof.Machine

variable (s : State)

@[simp] theorem State.setReg_cfg (r : Reg) (v : Byte) : (s.setReg r v).cfg = s.cfg := rfl
@[simp] theorem State.setReg_rom (r : Reg) (v : Byte) : (s.setReg r v).rom = s.rom := rfl
@[simp] theorem State.setReg_ram (r : Reg) (v : Byte) : (s.setReg r v).ram = s.ram := rfl
@[simp] theorem State.setReg_x (r : Reg) (v : Byte) : (s.setReg r v).x = s.x.set r.val v := rfl
@[simp] theorem State.setReg_pc (r : Reg) (v : Byte) : (s.setReg r v).pc = s.pc := rfl
@[simp] theorem State.setReg_z (r : Reg) (v : Byte) : (s.setReg r v).z = s.z := rfl
@[simp] theorem State.setReg_c (r : Reg) (v : Byte) : (s.setReg r v).c = s.c := rfl
@[simp] theorem State.setReg_h (r : Reg) (v : Byte) : (s.setReg r v).h = s.h := rfl
@[simp] theorem State.setReg_sp (r : Reg) (v : Byte) : (s.setReg r v).sp = s.sp := rfl
@[simp] theorem State.setReg_stk (r : Reg) (v : Byte) : (s.setReg r v).stk = s.stk := rfl
@[simp] theorem State.setReg_err (r : Reg) (v : Byte) : (s.setReg r v).err = s.err := rfl

@[simp] theorem State.setPc_cfg (a : Word) : (s.setPc a).cfg = s.cfg := rfl
@[simp] theorem State.setPc_rom (a : Word) : (s.setPc a).rom = s.rom := rfl
@[simp] theorem State.setPc_ram (a : Word) : (s.setPc a).ram = s.ram := rfl
@[simp] theorem State.setPc_x (a : Word) : (s.setPc a).x = s.x := rfl
@[simp] theorem State.setPc_pc (a : Word) : (s.setPc a).pc = a := rfl
@[simp] theorem State.setPc_z (a : Word) : (s.setPc a).z = s.z := rfl
@[simp] theorem State.setPc_c (a : Word) : (s.setPc a).c = s.c := rfl
@[simp] theorem State.setPc_h (a : Word) : (s.setPc a).h = s.h := rfl
@[simp] theorem State.setPc_sp (a : Word) : (s.setPc a).sp = s.sp := rfl
@[simp] theorem State.setPc_stk (a : Word) : (s.setPc a).stk = s.stk := rfl
@[simp] theorem State.setPc_err (a : Word) : (s.setPc a).err = s.err := rfl

@[simp] theorem State.setHalt_cfg : (s.setHalt).cfg = s.cfg := rfl
@[simp] theorem State.setHalt_rom : (s.setHalt).rom = s.rom := rfl
@[simp] theorem State.setHalt_ram : (s.setHalt).ram = s.ram := rfl
@[simp] theorem State.setHalt_x : (s.setHalt).x = s.x := rfl
@[simp] theorem State.setHalt_pc : (s.setHalt).pc = s.pc := rfl
@[simp] theorem State.setHalt_z : (s.setHalt).z = s.z := rfl
@[simp] theorem State.setHalt_c : (s.setHalt).c = s.c := rfl
@[simp] theorem State.setHalt_h : (s.setHalt).h = true := rfl
@[simp] theorem State.setHalt_sp : (s.setHalt).sp = s.sp := rfl
@[simp] theorem State.setHalt_stk : (s.setHalt).stk = s.stk := rfl
@[simp] theorem State.setHalt_err : (s.setHalt).err = s.err := rfl

@[simp] theorem State.ramWrite_cfg (a : Word) (v : Byte) : (s.ramWrite a v).cfg = s.cfg := rfl
@[simp] theorem State.ramWrite_rom (a : Word) (v : Byte) : (s.ramWrite a v).rom = s.rom := rfl
@[simp] theorem State.ramWrite_ram (a : Word) (v : Byte) : (s.ramWrite a v).ram = s.ram.write a.toNat v := rfl
@[simp] theorem State.ramWrite_x (a : Word) (v : Byte) : (s.ramWrite a v).x = s.x := rfl
@[simp] theorem State.ramWrite_pc (a : Word) (v : Byte) : (s.ramWrite a v).pc = s.pc := rfl
@[simp] theorem State.ramWrite_z (a : Word) (v : Byte) : (s.ramWrite a v).z = s.z := rfl
@[simp] theorem State.ramWrite_c (a : Word) (v : Byte) : (s.ramWrite a v).c = s.c := rfl
@[simp] theorem State.ramWrite_h (a : Word) (v : Byte) : (s.ramWrite a v).h = s.h := rfl
@[simp] theorem State.ramWrite_sp (a : Word) (v : Byte) : (s.ramWrite a v).sp = s.sp := rfl
@[simp] theorem State.ramWrite_stk (a : Word) (v : Byte) : (s.ramWrite a v).stk = s.stk := rfl
@[simp] theorem State.ramWrite_err (a : Word) (v : Byte) : (s.ramWrite a v).err = s.err := rfl

@[simp] theorem State.setZ_cfg (b : Bool) : (s.setZ b).cfg = s.cfg := rfl
@[simp] theorem State.setZ_rom (b : Bool) : (s.setZ b).rom = s.rom := rfl
@[simp] theorem State.setZ_ram (b : Bool) : (s.setZ b).ram = s.ram := rfl
@[simp] theorem State.setZ_x (b : Bool) : (s.setZ b).x = s.x := rfl
@[simp] theorem State.setZ_pc (b : Bool) : (s.setZ b).pc = s.pc := rfl
@[simp] theorem State.setZ_z (b : Bool) : (s.setZ b).z = b := rfl
@[simp] theorem State.setZ_c (b : Bool) : (s.setZ b).c = s.c := rfl
@[simp] theorem State.setZ_h (b : Bool) : (s.setZ b).h = s.h := rfl
@[simp] theorem State.setZ_sp (b : Bool) : (s.setZ b).sp = s.sp := rfl
@[simp] theorem State.setZ_stk (b : Bool) : (s.setZ b).stk = s.stk := rfl
@[simp] theorem State.setZ_err (b : Bool) : (s.setZ b).err = s.err := rfl

@[simp] theorem State.setC_cfg (b : Bool) : (s.setC b).cfg = s.cfg := rfl
@[simp] theorem State.setC_rom (b : Bool) : (s.setC b).rom = s.rom := rfl
@[simp] theorem State.setC_ram (b : Bool) : (s.setC b).ram = s.ram := rfl
@[simp] theorem State.setC_x (b : Bool) : (s.setC b).x = s.x := rfl
@[simp] theorem State.setC_pc (b : Bool) : (s.setC b).pc = s.pc := rfl
@[simp] theorem State.setC_z (b : Bool) : (s.setC b).z = s.z := rfl
@[simp] theorem State.setC_c (b : Bool) : (s.setC b).c = b := rfl
@[simp] theorem State.setC_h (b : Bool) : (s.setC b).h = s.h := rfl
@[simp] theorem State.setC_sp (b : Bool) : (s.setC b).sp = s.sp := rfl
@[simp] theorem State.setC_stk (b : Bool) : (s.setC b).stk = s.stk := rfl
@[simp] theorem State.setC_err (b : Bool) : (s.setC b).err = s.err := rfl

@[simp] theorem State.writeSum_cfg (r : Reg) (sum : Byte × Bool) : (s.writeSum r sum).cfg = s.cfg := rfl
@[simp] theorem State.writeSum_rom (r : Reg) (sum : Byte × Bool) : (s.writeSum r sum).rom = s.rom := rfl
@[simp] theorem State.writeSum_ram (r : Reg) (sum : Byte × Bool) : (s.writeSum r sum).ram = s.ram := rfl
@[simp] theorem State.writeSum_x (r : Reg) (sum : Byte × Bool) : (s.writeSum r sum).x = s.x.set r.val sum.1 := rfl
@[simp] theorem State.writeSum_pc (r : Reg) (sum : Byte × Bool) : (s.writeSum r sum).pc = s.pc := rfl
@[simp] theorem State.writeSum_z (r : Reg) (sum : Byte × Bool) : (s.writeSum r sum).z = isZero sum.1 := rfl
@[simp] theorem State.writeSum_c (r : Reg) (sum : Byte × Bool) : (s.writeSum r sum).c = sum.2 := rfl
@[simp] theorem State.writeSum_h (r : Reg) (sum : Byte × Bool) : (s.writeSum r sum).h = s.h := rfl
@[simp] theorem State.writeSum_sp (r : Reg) (sum : Byte × Bool) : (s.writeSum r sum).sp = s.sp := rfl
@[simp] theorem State.writeSum_stk (r : Reg) (sum : Byte × Bool) : (s.writeSum r sum).stk = s.stk := rfl
@[simp] theorem State.writeSum_err (r : Reg) (sum : Byte × Bool) : (s.writeSum r sum).err = s.err := rfl

@[simp] theorem State.enterError_cfg (k : ErrKind) (a : Word) : (s.enterError k a).cfg = s.cfg := rfl
@[simp] theorem State.enterError_rom (k : ErrKind) (a : Word) : (s.enterError k a).rom = s.rom := rfl
@[simp] theorem State.enterError_ram (k : ErrKind) (a : Word) : (s.enterError k a).ram = s.ram := rfl
@[simp] theorem State.enterError_x (k : ErrKind) (a : Word) : (s.enterError k a).x = s.x := rfl
@[simp] theorem State.enterError_pc (k : ErrKind) (a : Word) : (s.enterError k a).pc = a := rfl
@[simp] theorem State.enterError_z (k : ErrKind) (a : Word) : (s.enterError k a).z = s.z := rfl
@[simp] theorem State.enterError_c (k : ErrKind) (a : Word) : (s.enterError k a).c = s.c := rfl
@[simp] theorem State.enterError_h (k : ErrKind) (a : Word) : (s.enterError k a).h = s.h := rfl
@[simp] theorem State.enterError_sp (k : ErrKind) (a : Word) : (s.enterError k a).sp = s.sp := rfl
@[simp] theorem State.enterError_stk (k : ErrKind) (a : Word) : (s.enterError k a).stk = s.stk := rfl
@[simp] theorem State.enterError_err (k : ErrKind) (a : Word) : (s.enterError k a).err = some ⟨k, s.pc, s.romRead s.pc⟩ := rfl

/-- A register reads the value just written to it (R21). -/
@[simp] theorem State.setReg_x_same (r : Reg) (v : Byte) : (s.setReg r v).x[r.val] = v := by
  simp [State.setReg]

/-- A register write leaves every other register alone (R21). -/
theorem State.setReg_x_other (r q : Reg) (v : Byte) (hne : q ≠ r) : (s.setReg r v).x[q.val] = s.x[q.val] := by
  have hv : r.val ≠ q.val := fun he => hne (Fin.ext he.symm)
  simp [State.setReg, hv]

/-- Reads through the named accessors are reads of the fields. -/
theorem State.reg_eq (r : Reg) : s.reg r = s.x[r.val] := rfl

/-- ROM reads depend on the ROM image only. -/
theorem State.romRead_congr (t : State) (he : t.rom = s.rom) (a : Word) : t.romRead a = s.romRead a := by
  simp only [State.romRead, he]

/-- RAM reads depend on the RAM contents only. -/
theorem State.ramRead_congr (t : State) (he : t.ram = s.ram) (a : Word) : t.ramRead a = s.ramRead a := by
  simp only [State.ramRead, he]

end Sys2Proof.Machine
end

