-- ==== Sys2Proof/Laws/Ops.lean ====
section
/-!
SUPPORT. What each shared operation can do, said once: if it answers a next state, then one of these cases holds. Proofs about meanings cite
these lemmas instead of unfolding the operations.
-/

namespace Sys2Proof.Machine

/-! ## Increments of the program counter -/

/-- Under `PC_WRAP = wrap` every increment succeeds (R169). -/
theorem State.pcFits_of_wrap (s : State) (k : Nat) (h : s.cfg.pcWrap = .wrap) : s.pcFits k = true := by
  simp [State.pcFits, h]

/-- What fits says: no wrap-around fault among `k` increments. -/
theorem State.pcFits_iff (s : State) (k : Nat) :
    s.pcFits k = true ↔ s.cfg.pcWrap = .wrap ∨ s.pc.toNat + k < romSize := by
  simp [State.pcFits]

/-- Where `n` increments succeed, so do fewer. -/
theorem State.pcFits_mono {s : State} {k n : Nat} (h : s.pcFits n = true) (hk : k ≤ n) : s.pcFits k = true := by
  rw [State.pcFits_iff] at h ⊢
  exact h.imp id fun hlt => Nat.lt_of_le_of_lt (Nat.add_le_add_left hk _) hlt

/-- Where an increment fails, the parameter is `fault`. -/
theorem State.fault_of_not_pcFits {s : State} {k : Nat} (h : ¬ s.pcFits k = true) : s.cfg.pcWrap = .fault := by
  cases hw : s.cfg.pcWrap with
  | wrap => exact absurd (s.pcFits_of_wrap k hw) h
  | fault => rfl

/-- Whether increments succeed depends on the parameter and `pc` only. -/
theorem State.pcFits_congr {s t : State} (hc : t.cfg = s.cfg) (hp : t.pc = s.pc) (k : Nat) : t.pcFits k = s.pcFits k := by
  simp only [State.pcFits, hc, hp]

@[simp] theorem State.setReg_pcFits (s : State) (r : Reg) (v : Byte) (k : Nat) : (s.setReg r v).pcFits k = s.pcFits k := rfl
@[simp] theorem State.ramWrite_pcFits (s : State) (a : Word) (v : Byte) (k : Nat) : (s.ramWrite a v).pcFits k = s.pcFits k := rfl
@[simp] theorem State.setZ_pcFits (s : State) (b : Bool) (k : Nat) : (s.setZ b).pcFits k = s.pcFits k := rfl
@[simp] theorem State.setC_pcFits (s : State) (b : Bool) (k : Nat) : (s.setC b).pcFits k = s.pcFits k := rfl
@[simp] theorem State.writeSum_pcFits (s : State) (r : Reg) (sum : Byte × Bool) (k : Nat) :
    (s.writeSum r sum).pcFits k = s.pcFits k := rfl

/-! ## The shared operations of a meaning -/

/-- Raising an error answers the error state. -/
@[simp] theorem raise_eq (k : ErrKind) (a : Word) (s : State) : raise k a s = .next (s.enterError k a) := rfl

theorem advance_of_fits {n : Nat} {s : State} (h : s.pcFits n = true) :
    advance n s = .next (s.setPc (s.pc + BitVec.ofNat 16 n)) := by
  simp [advance, h]

theorem afterOperands_of_fits {k : Nat} {s : State} (h : s.pcFits k = true) (body : Host.Outcome State Fault Refusal) :
    afterOperands k s body = body := by
  simp [afterOperands, h]

theorem inRam_of_lt {a : Word} {s : State} (h : a.toNat < s.cfg.ramSize) (k : Nat)
    (body : Host.Outcome State Fault Refusal) : inRam a k s body = body := by
  simp [inRam, h]

theorem inRam_of_le {a : Word} {s : State} (h : s.cfg.ramSize ≤ a.toNat) (k : Nat)
    (body : Host.Outcome State Fault Refusal) :
    inRam a k s body = .next (s.enterError .operandRange (s.pc + BitVec.ofNat 16 k)) := by
  simp [inRam, Nat.not_lt.2 h]

/-- Everything the advance can do: move `pc` on, or raise `PcWrapError` on the state it was given. -/
theorem advance_cases {n : Nat} {s t : State} (h : advance n s = .next t) :
    (s.pcFits n = true ∧ t = s.setPc (s.pc + BitVec.ofNat 16 n)) ∨
      (¬ s.pcFits n = true ∧ t = s.enterError .pcWrap 0xFFFF) := by
  unfold advance at h
  split at h
  · exact .inl ⟨‹_›, by simpa using h.symm⟩
  · exact .inr ⟨‹_›, by simpa using h.symm⟩

/-- Everything the operand increments can do: go on with the body, or raise `PcWrapError` before it. -/
theorem afterOperands_cases {k : Nat} {s t : State} {body : Host.Outcome State Fault Refusal}
    (h : afterOperands k s body = .next t) :
    (s.pcFits k = true ∧ body = .next t) ∨ (¬ s.pcFits k = true ∧ t = s.enterError .pcWrap 0xFFFF) := by
  unfold afterOperands at h
  split at h
  · exact .inl ⟨‹_›, h⟩
  · exact .inr ⟨‹_›, by simpa using h.symm⟩

/-- Everything the RAM bound check can do. -/
theorem inRam_cases {a : Word} {k : Nat} {s t : State} {body : Host.Outcome State Fault Refusal}
    (h : inRam a k s body = .next t) :
    (a.toNat < s.cfg.ramSize ∧ body = .next t) ∨
      (¬ a.toNat < s.cfg.ramSize ∧ t = s.enterError .operandRange (s.pc + BitVec.ofNat 16 k)) := by
  unfold inRam at h
  split at h
  · exact .inl ⟨‹_›, h⟩
  · exact .inr ⟨‹_›, by simpa using h.symm⟩

/-- Everything the check of a jump target can do. -/
theorem jumpTarget_cases {a : Word} {k : Nat} {s t : State} {body : Host.Outcome State Fault Refusal}
    (h : jumpTarget a k s body = .next t) :
    ((s.cfg.jumpRamCheck = true → a.toNat < s.cfg.ramSize) ∧ body = .next t) ∨
      (s.cfg.jumpRamCheck = true ∧ ¬ a.toNat < s.cfg.ramSize ∧
        t = s.enterError .operandRange (s.pc + BitVec.ofNat 16 k)) := by
  unfold jumpTarget at h
  split at h
  · rcases inRam_cases h with ⟨hlt, hb⟩ | ⟨hge, ht⟩
    · exact .inl ⟨fun _ => hlt, hb⟩
    · exact .inr ⟨‹_›, hge, ht⟩
  · exact .inl ⟨fun hj => absurd hj ‹_›, h⟩

/-! ## The stack engine -/

/-- Everything a push can do (R210). -/
theorem State.stackPush_cases {s t : State} {v : Byte} (h : s.stackPush v = some t) :
    ∃ hlt : s.sp.val < stackDepth,
      t = { s with stk := s.stk.set s.sp.val v, sp := ⟨s.sp.val + 1, Nat.succ_lt_succ hlt⟩ } := by
  unfold State.stackPush at h
  split at h
  · exact ⟨‹_›, by simpa using h.symm⟩
  · cases h

/-- A push overflows exactly on a full stack (R210). -/
theorem State.stackPush_eq_none {s : State} {v : Byte} : s.stackPush v = none ↔ s.sp.val = stackDepth := by
  have := s.sp.isLt
  unfold State.stackPush
  split
  · simp only [reduceCtorEq, false_iff]; omega
  · simp only [true_iff]; omega

/-- Everything a pop can do (R211). -/
theorem State.stackPop_cases {s t : State} {v : Byte} (h : s.stackPop = some (v, t)) :
    ∃ hlt : 0 < s.sp.val, v = s.stk[s.sp.val - 1] ∧
      t = { s with sp := ⟨s.sp.val - 1, Nat.lt_of_le_of_lt (Nat.sub_le _ _) s.sp.isLt⟩ } := by
  unfold State.stackPop at h
  split at h
  · rename_i hlt
    simp only [Option.some.injEq, Prod.mk.injEq] at h
    exact ⟨hlt, h.1.symm, h.2.symm⟩
  · cases h

/-- A pop underflows exactly on an empty stack (R211). -/
theorem State.stackPop_eq_none {s : State} : s.stackPop = none ↔ s.sp.val = 0 := by
  unfold State.stackPop
  split
  · simp only [reduceCtorEq, false_iff]; omega
  · simp only [true_iff]; omega

/-! ## The ALU -/

/-- `add8` is the sum of bytes, and its carry is the overflow of the exact sum (R230). -/
theorem add8_eq (a b : Byte) : add8 a b = (a + b, decide (255 < a.toNat + b.toNat)) := by
  simp only [add8]
  congr 1

/-! ## Every meaning answers a next state -/

/-- A meaning never faults and never refuses: it completes, or it enters an error. -/
theorem exec_next (i : Instr) (s : State) : ∃ t, exec i s = .next t := by
  cases i <;>
    simp only [exec, execNop, execJump, execPush, execPop, execClear, execInc, execHalt, execAddReg, execAddImm,
      execMovReg, execMovImm, execLpm, execLoad, execStore, afterOperands, jumpTarget, inRam, advance, raise_eq] <;>
    (repeat' split) <;> exact ⟨_, rfl⟩

end Sys2Proof.Machine
end

