-- ==== Sys2Proof/Laws/Cycle.lean ====
section
/-!
SUPPORT. What the fetch reads and what a step can do, said once (40_cycle.md R160 to R171).
-/

namespace Sys2Proof.Machine

/-! ## When a step is taken -/

theorem State.stopReason_eq_none {s : State} : s.stopReason = none ↔ s.h = false ∧ s.err = none := by
  unfold State.stopReason
  cases hh : s.h <;> cases he : s.err <;> simp

/-- The step of a running core is decided by what it decodes. -/
theorem step_of_running {s : State} (hh : s.h = false) (he : s.err = none) :
    step s = match s.decodeNext with
      | .instr i => exec i s
      | .reject why last => raiseReject why last s := by
  cases hd : s.decodeNext <;> simp [step, State.stopReason_eq_none.2 ⟨hh, he⟩, hd]

/-- Everything a step that answers a next state can be: the core runs, and the step is the meaning of the decoded instruction or the
error entry of the rejection. -/
theorem step_cases {s t : State} (h : step s = .next t) :
    s.h = false ∧ s.err = none ∧
      ((∃ i, s.decodeNext = .instr i ∧ exec i s = .next t) ∨
        ∃ why last, s.decodeNext = .reject why last ∧
          t = s.enterError (DecodeReject.errKind why) (s.pc + BitVec.ofNat 16 last)) := by
  unfold step at h
  cases hs : s.stopReason with
  | some r => simp [hs] at h
  | none =>
    obtain ⟨hh, he⟩ := State.stopReason_eq_none.1 hs
    refine ⟨hh, he, ?_⟩
    simp only [hs] at h
    cases hd : s.decodeNext with
    | instr i => simp only [hd] at h; exact .inl ⟨i, rfl, h⟩
    | reject why last =>
      simp only [hd, raiseReject, raise_eq, Host.Outcome.next.injEq] at h
      exact .inr ⟨why, last, rfl, h.symm⟩

/-! ## The fetch -/

/-- The fetch depends on ROM and `PC_WRAP` only. -/
theorem State.fetchBytes_congr {s t : State} (hr : t.rom = s.rom) (hc : t.cfg = s.cfg) (n : Nat) (a : Word) :
    t.fetchBytes n a = s.fetchBytes n a := by
  induction n generalizing a with
  | zero => rfl
  | succ n ih => simp only [State.fetchBytes, ih, hc, State.romRead_congr s t hr]

/-- What a core decodes depends on ROM, `pc` and the configuration only. -/
theorem State.decodeNext_congr {s t : State} (hr : t.rom = s.rom) (hc : t.cfg = s.cfg) (hp : t.pc = s.pc) :
    t.decodeNext = s.decodeNext := by
  simp only [State.decodeNext, State.instrBytes, hc, hp, State.romRead_congr s t hr, State.fetchBytes_congr hr hc]

/-- A fetch of at least one byte begins with the byte at the address. -/
theorem State.fetchBytes_succ (s : State) (n : Nat) (a : Word) :
    s.fetchBytes (n + 1) a =
      s.romRead a :: if a = 0xFFFF ∧ s.cfg.pcWrap = .fault then [] else s.fetchBytes n (a + 1) := rfl

/-- Byte `k` of a fetch is the ROM byte `k` past its address, modulo 65536. -/
theorem State.fetchBytes_getElem (s : State) (n : Nat) (a : Word) (k : Nat) (h : k < (s.fetchBytes n a).length) :
    (s.fetchBytes n a)[k] = s.romRead (a + BitVec.ofNat 16 k) := by
  induction n generalizing a k with
  | zero => exact absurd h (Nat.not_lt_zero _)
  | succ n ih =>
    simp only [State.fetchBytes_succ] at h ⊢
    cases k with
    | zero => simp
    | succ k =>
      simp only [List.getElem_cons_succ, List.length_cons] at h ⊢
      split at h
      · simp at h
      · rename_i hc
        have hk : a + BitVec.ofNat 16 (k + 1) = a + 1 + BitVec.ofNat 16 k := by
          apply BitVec.eq_of_toNat_eq
          have h1 : (1 : Word).toNat = 1 := rfl
          simp only [BitVec.toNat_add, BitVec.toNat_ofNat, h1]
          omega
        simp only [if_neg hc, hk]
        exact ih (a + 1) k (Nat.lt_of_succ_lt_succ h)

/-- How many bytes a fetch reads: all it asks for, but under `PC_WRAP = fault` none past 0xFFFF (R169). -/
theorem State.fetchBytes_length (s : State) (n : Nat) (a : Word) :
    (s.fetchBytes n a).length =
      match s.cfg.pcWrap with
      | .wrap => n
      | .fault => min n (romSize - a.toNat) := by
  induction n generalizing a with
  | zero => cases h : s.cfg.pcWrap <;> simp [State.fetchBytes]
  | succ n ih =>
    have hlt := a.isLt
    simp only [State.fetchBytes_succ, List.length_cons]
    cases h : s.cfg.pcWrap with
    | wrap => simp [ih, h]
    | fault =>
      by_cases ha : a = 0xFFFF
      · subst ha
        simp [romSize]
      · have hne : a.toNat ≠ 65535 := fun he => ha (BitVec.eq_of_toNat_eq (by simpa using he))
        have hadd : (a + 1).toNat = a.toNat + 1 := by
          have h1 : (1 : Word).toNat = 1 := rfl
          simp only [BitVec.toNat_add, h1]
          omega
        simp only [ha, false_and, if_false, ih, h, hadd]
        show _ = min (n + 1) (65536 - a.toNat)
        show min n (65536 - (a.toNat + 1)) + 1 = _
        omega

/-- A fetch reads all it asks for where the increments of `pc` succeed. -/
theorem State.fetchBytes_length_of_fits {s : State} {n : Nat} (h : s.pcFits n = true) :
    (s.fetchBytes (n + 1) s.pc).length = n + 1 := by
  rw [State.fetchBytes_length]
  cases hw : s.cfg.pcWrap with
  | wrap => rfl
  | fault =>
    have := (s.pcFits_iff n).1 h
    simp only [hw, reduceCtorEq, false_or, romSize] at this
    show min (n + 1) (65536 - s.pc.toNat) = _
    omega

/-- A longer fetch begins with a shorter one. -/
theorem State.fetchBytes_prefix (s : State) {n m : Nat} (h : n ≤ m) (a : Word) :
    ∃ rest, s.fetchBytes m a = s.fetchBytes n a ++ rest := by
  induction n generalizing m a with
  | zero => exact ⟨_, rfl⟩
  | succ n ih =>
    cases m with
    | zero => omega
    | succ m =>
      simp only [State.fetchBytes_succ]
      by_cases hc : a = 0xFFFF ∧ s.cfg.pcWrap = .fault
      · exact ⟨[], by simp [hc]⟩
      · obtain ⟨rest, hr⟩ := ih (Nat.le_of_succ_le_succ h) (a + 1)
        exact ⟨rest, by rw [if_neg hc, if_neg hc, hr]; rfl⟩

/-- The bytes of the next instruction begin with its opcode byte. -/
theorem State.instrBytes_eq (s : State) :
    ∃ rest, s.instrBytes = s.romRead s.pc :: rest := by
  have hpos : ∃ n, entryLength s.cfg (s.romRead s.pc) = n + 1 := by
    unfold entryLength
    split
    · exact ⟨0, rfl⟩
    · exact ⟨_, Nat.add_comm _ _⟩
  obtain ⟨n, hn⟩ := hpos
  exact ⟨_, by rw [State.instrBytes, hn, State.fetchBytes_succ]⟩

end Sys2Proof.Machine
end

