-- ==== Sys2Proof/Laws/Exec.lean ====
section
/-!
SUPPORT. What a meaning and a decode can do, each said once: every later proof about a step cites these and unfolds no meaning. And the
canonical form of the memories at reset and after a load.
-/

namespace Sys2Proof.Machine

/-- The same state under `PC_WRAP = wrap`. -/
def State.wrapping (s : State) : State := { s with cfg := { s.cfg with pcWrap := .wrap } }

/-- Everything a meaning that answers a next state can do to the fields the whole-machine statements speak of: ROM and the parameters never change,
RAM only by a STORE in bounds, registers only at the destination, `H` only by HALT; and the latch stays, or takes an error with nothing else
written, or takes `PcWrapError` at the final advance, with what the instruction writes under `PC_WRAP = wrap` (R171, R303). -/
theorem exec_cases {i : Instr} {s t : State} (h : exec i s = .next t) :
    t.rom = s.rom ∧ t.cfg = s.cfg ∧ ((∀ a rs, i ≠ .store a rs) → t.ram = s.ram) ∧
    (∀ r : Reg, destination i ≠ some r → t.x[r.val] = s.x[r.val]) ∧ t.h = (s.h || (i == .halt)) ∧
    (∀ a rs, i = .store a rs → t.ram = s.ram ∨ (a.toNat < s.cfg.ramSize ∧ t.ram = s.ram.write a.toNat (s.reg rs))) ∧
    (t.err = s.err ∨
       (∃ k, t = s.enterError k t.pc ∧
         match k with
         | .operandRange => i.wf s.cfg = false
         | .stackOverflow => (∃ rs, i = .push rs) ∧ s.sp.val = 32 ∧ t.pc = s.pc + 1
         | .stackUnderflow => (∃ rs, i = .pop rs) ∧ s.sp.val = 0 ∧ t.pc = s.pc + 1
         | .pcWrap => s.cfg.pcWrap = .fault ∧ t.pc = 0xFFFF
         | _ => False) ∨
       (t.err = some ⟨.pcWrap, s.pc, s.romRead s.pc⟩ ∧ s.cfg.pcWrap = .fault ∧ t.pc = 0xFFFF ∧
         ∃ u, exec i s.wrapping = .next u ∧ u.err = s.err ∧
           t = { u with cfg := s.cfg, pc := 0xFFFF, err := some ⟨.pcWrap, s.pc, s.romRead s.pc⟩ })) := by
  have fits : ∀ k, s.wrapping.pcFits k = true := fun k => State.pcFits_of_wrap _ k rfl
  have fin : ∀ (n : Nat) (v : State), v.err = s.err → v.pc = s.pc → v.rom = s.rom → v.cfg = s.cfg →
      ¬ v.pcFits n = true → exec i s.wrapping = advance n v.wrapping →
      (v.enterError .pcWrap 0xFFFF).err = some ⟨.pcWrap, s.pc, s.romRead s.pc⟩ ∧ s.cfg.pcWrap = .fault ∧
        (v.enterError .pcWrap 0xFFFF).pc = 0xFFFF ∧
        ∃ u, exec i s.wrapping = .next u ∧ u.err = s.err ∧
          v.enterError .pcWrap 0xFFFF =
            { u with cfg := s.cfg, pc := 0xFFFF, err := some ⟨.pcWrap, s.pc, s.romRead s.pc⟩ } := by
    intro n v he hp hr hc hn hx
    rw [advance_of_fits (State.pcFits_of_wrap _ n rfl)] at hx
    have hrom : v.romRead s.pc = s.romRead s.pc := State.romRead_congr s v hr s.pc
    refine ⟨by rw [State.enterError_err, hp, hrom], hc ▸ State.fault_of_not_pcFits hn, rfl, _, hx, he, ?_⟩
    simp only [State.enterError, hp, hrom, State.wrapping, State.setPc, hc]
  have dx : ∀ {rd r : Reg}, destination i = some rd → destination i ≠ some r → r ≠ rd := by
    intro rd r h1 h2 h3; subst h3; exact h2 h1
  have sx : ∀ (rd r : Reg) (v : Byte), r ≠ rd → (s.x.set rd.val v)[r.val] = s.x[r.val] := fun rd r v h => State.setReg_x_other s rd r v h
  cases i
  case nop =>
    rcases advance_cases h with ⟨_, rfl⟩ | ⟨hn, rfl⟩
    · refine ⟨rfl, rfl, fun _ => rfl, fun _ _ => rfl, by simp, nofun, .inl rfl⟩
    · refine ⟨rfl, rfl, fun _ => rfl, fun _ _ => rfl, by simp, nofun, .inr (.inl ⟨.pcWrap, rfl, State.fault_of_not_pcFits hn, rfl⟩)⟩
  case halt =>
    cases h
    refine ⟨rfl, rfl, fun _ => rfl, fun _ _ => rfl, by simp, nofun, .inl rfl⟩
  case jump a =>
    rcases afterOperands_cases h with ⟨_, h⟩ | ⟨hn, rfl⟩
    · rcases jumpTarget_cases h with ⟨_, h⟩ | ⟨hj, hlt, rfl⟩
      · cases h
        refine ⟨rfl, rfl, fun _ => rfl, fun _ _ => rfl, by simp, nofun, .inl rfl⟩
      · refine ⟨rfl, rfl, fun _ => rfl, fun _ _ => rfl, by simp, nofun, .inr (.inl ⟨.operandRange, rfl, by simp [Instr.wf, hj, hlt]⟩)⟩
    · refine ⟨rfl, rfl, fun _ => rfl, fun _ _ => rfl, by simp, nofun, .inr (.inl ⟨.pcWrap, rfl, State.fault_of_not_pcFits hn, rfl⟩)⟩
  case push r =>
    rcases afterOperands_cases h with ⟨_, h⟩ | ⟨hn, rfl⟩
    · cases hp : s.stackPush (s.reg r) with
      | none =>
        simp only [hp, raise_eq, Host.Outcome.next.injEq] at h; subst h
        refine ⟨rfl, rfl, fun _ => rfl, fun _ _ => rfl, by simp, nofun, .inr (.inl ⟨.stackOverflow, rfl, ⟨_, rfl⟩, State.stackPush_eq_none.1 hp, rfl⟩)⟩
      | some u =>
        simp only [hp] at h
        obtain ⟨hlt, rfl⟩ := State.stackPush_cases hp
        have hw : s.wrapping.stackPush (s.wrapping.reg r) = some _ := dif_pos hlt
        rcases advance_cases h with ⟨_, rfl⟩ | ⟨hn, rfl⟩
        · refine ⟨rfl, rfl, fun _ => rfl, fun _ _ => rfl, by simp, nofun, .inl rfl⟩
        · refine ⟨rfl, rfl, fun _ => rfl, fun _ _ => rfl, by simp, nofun, .inr (.inr (fin _ _ rfl rfl rfl rfl hn (by
          simp only [exec, execPush, afterOperands_of_fits (fits 1), hw]; rfl)))⟩
    · refine ⟨rfl, rfl, fun _ => rfl, fun _ _ => rfl, by simp, nofun, .inr (.inl ⟨.pcWrap, rfl, State.fault_of_not_pcFits hn, rfl⟩)⟩
  case pop r =>
    rcases afterOperands_cases h with ⟨_, h⟩ | ⟨hn, rfl⟩
    · cases hp : s.stackPop with
      | none =>
        simp only [hp, raise_eq, Host.Outcome.next.injEq] at h; subst h
        refine ⟨rfl, rfl, fun _ => rfl, fun _ _ => rfl, by simp, nofun, .inr (.inl ⟨.stackUnderflow, rfl, ⟨_, rfl⟩, State.stackPop_eq_none.1 hp, rfl⟩)⟩
      | some u =>
        obtain ⟨v, u⟩ := u
        simp only [hp] at h
        obtain ⟨hlt, rfl, rfl⟩ := State.stackPop_cases hp
        have hw : s.wrapping.stackPop = some _ := dif_pos hlt
        rcases advance_cases h with ⟨_, rfl⟩ | ⟨hn, rfl⟩
        · refine ⟨rfl, rfl, fun _ => rfl, fun _ h => sx _ _ _ (dx rfl h), by simp, nofun, .inl rfl⟩
        · refine ⟨rfl, rfl, fun _ => rfl, fun _ h => sx _ _ _ (dx rfl h), by simp, nofun, .inr (.inr (fin _ _ rfl rfl rfl rfl hn (by
          simp only [exec, execPop, afterOperands_of_fits (fits 1), hw]; rfl)))⟩
    · refine ⟨rfl, rfl, fun _ => rfl, fun _ _ => rfl, by simp, nofun, .inr (.inl ⟨.pcWrap, rfl, State.fault_of_not_pcFits hn, rfl⟩)⟩
  case load rd a =>
    rcases afterOperands_cases h with ⟨_, h⟩ | ⟨hn, rfl⟩
    · rcases inRam_cases h with ⟨hin, h⟩ | ⟨hlt, rfl⟩
      · rcases advance_cases h with ⟨_, rfl⟩ | ⟨hn, rfl⟩
        · refine ⟨rfl, rfl, fun _ => rfl, fun _ h => sx _ _ _ (dx rfl h), by simp, nofun, .inl rfl⟩
        · refine ⟨rfl, rfl, fun _ => rfl, fun _ h => sx _ _ _ (dx rfl h), by simp, nofun, .inr (.inr (fin _ _ rfl rfl rfl rfl hn (by
          simp only [exec, execLoad, afterOperands_of_fits (fits 3)]; rw [inRam_of_lt (s := s.wrapping) hin]; rfl)))⟩
      · refine ⟨rfl, rfl, fun _ => rfl, fun _ _ => rfl, by simp, nofun, .inr (.inl ⟨.operandRange, rfl, by simpa [Instr.wf] using hlt⟩)⟩
    · refine ⟨rfl, rfl, fun _ => rfl, fun _ _ => rfl, by simp, nofun, .inr (.inl ⟨.pcWrap, rfl, State.fault_of_not_pcFits hn, rfl⟩)⟩
  case store a rs =>
    rcases afterOperands_cases h with ⟨_, h⟩ | ⟨hn, rfl⟩
    · rcases inRam_cases h with ⟨hin, h⟩ | ⟨hlt, rfl⟩
      · rcases afterOperands_cases h with ⟨_, h⟩ | ⟨hn, rfl⟩
        · rcases advance_cases h with ⟨_, rfl⟩ | ⟨hn, rfl⟩
          · refine ⟨rfl, rfl, fun h => absurd rfl (h _ _), fun _ _ => rfl, by simp, ?_, .inl rfl⟩
            rintro _ _ ⟨⟩; exact .inr ⟨hin, rfl⟩
          · refine ⟨rfl, rfl, fun h => absurd rfl (h _ _), fun _ _ => rfl, by simp, ?_, .inr (.inr (fin _ _ rfl rfl rfl rfl hn (by
            simp only [exec, execStore, afterOperands_of_fits (fits 2), afterOperands_of_fits (fits 3)]
            rw [inRam_of_lt (s := s.wrapping) hin]; rfl)))⟩
            rintro _ _ ⟨⟩; exact .inr ⟨hin, rfl⟩
        · refine ⟨rfl, rfl, fun _ => rfl, fun _ _ => rfl, by simp, fun _ _ _ => .inl rfl, .inr (.inl ⟨.pcWrap, rfl, State.fault_of_not_pcFits hn, rfl⟩)⟩
      · refine ⟨rfl, rfl, fun _ => rfl, fun _ _ => rfl, by simp, fun _ _ _ => .inl rfl, .inr (.inl ⟨.operandRange, rfl, by simpa [Instr.wf] using hlt⟩)⟩
    · refine ⟨rfl, rfl, fun _ => rfl, fun _ _ => rfl, by simp, fun _ _ _ => .inl rfl, .inr (.inl ⟨.pcWrap, rfl, State.fault_of_not_pcFits hn, rfl⟩)⟩
  all_goals
    rcases afterOperands_cases h with ⟨_, h⟩ | ⟨hn, rfl⟩
    · rcases advance_cases h with ⟨_, rfl⟩ | ⟨hn, rfl⟩
      · refine ⟨rfl, rfl, fun _ => rfl, fun _ h => sx _ _ _ (dx rfl h), by simp, nofun, .inl rfl⟩
      · refine ⟨rfl, rfl, fun _ => rfl, fun _ h => sx _ _ _ (dx rfl h), by simp, nofun, .inr (.inr (fin _ _ rfl rfl rfl rfl hn (by
        simp only [exec, execClear, execInc, execAddReg, execAddImm, execMovReg, execMovImm, execLpm, afterOperands, fits, if_true]; rfl)))⟩
    · refine ⟨rfl, rfl, fun _ => rfl, fun _ _ => rfl, by simp, nofun, .inr (.inl ⟨.pcWrap, rfl, State.fault_of_not_pcFits hn, rfl⟩)⟩

/-! ## The decode of the bytes at `pc` -/

/-- What a decoded instruction says of the entry of its opcode byte and of its operands (R114, R117). -/
theorem State.decodeNext_instr {s : State} {i : Instr} (h : s.decodeNext = .instr i) :
    i.wf s.cfg = true ∧ ∃ row, lookupOpcode s.cfg.table (s.romRead s.pc) = some row ∧
      row.mnemonic = i.mnemonic ∧ row.signature = i.signature := by
  obtain ⟨tl, htl⟩ := s.instrBytes_eq
  unfold State.decodeNext at h; rw [htl] at h
  simp only [decode] at h
  cases hl : lookupOpcode s.cfg.table (s.romRead s.pc) with
  | none => simp [hl] at h
  | some row =>
    simp only [hl] at h
    cases ho : loadOperands (addressBound s.cfg row.mnemonic row.signature) row.signature tl 0 with
    | error e => simp [ho] at h
    | ok ops =>
      simp only [ho] at h
      cases hi : instrOf row.mnemonic ops with
      | none => simp [hi] at h
      | some j =>
        simp only [hi, Decoded.instr.injEq] at h
        subst h
        obtain ⟨hm, hops⟩ := instrOf_eq_some.1 hi
        obtain ⟨h1, h2, rest, h3⟩ := loadOperands_ok ho
        have hs : row.signature = j.signature := by rw [Instr.signature, hops, h1]
        exact ⟨(wf_iff_inBound _ j).2 (by rw [hops, hm, ← hs]; exact h2), row, rfl, hm.symm, hs⟩

/-- What an error of the operand phase says (`loadOperands_error`), of bytes read from offset `last` on. -/
def OperandPhaseError (bound : Option Nat) (sig : Signature) (bytes : List Byte) (last : Nat) (why : DecodeReject) (k : Nat) : Prop :=
  (why = .bytesExhausted ∧ k = last + bytes.length ∧ bytes.length < signatureSlots sig) ∨
  (why = .operandRange ∧ ∃ before after : Signature,
    (sig = before ++ .register :: after ∧ k = last + signatureSlots before + 1 ∧
      ∃ b, bytes[signatureSlots before]? = some b ∧ 8 ≤ b.toNat) ∨
    (sig = before ++ .address :: after ∧ k = last + signatureSlots before + 2 ∧
      ∃ lo hi n, bytes[signatureSlots before]? = some lo ∧ bytes[signatureSlots before + 1]? = some hi ∧
        bound = some n ∧ n ≤ hi.toNat * 256 + lo.toNat))

/-- An error behind one operand is an error of the whole signature. -/
theorem OperandPhaseError.cons {bound : Option Nat} {sig : Signature} {rest : List Byte} {last : Nat} {why : DecodeReject} {k : Nat}
    (t : OperandType) (front : List Byte) (hf : front.length = t.slots)
    (h : OperandPhaseError bound sig rest (last + t.slots) why k) :
    OperandPhaseError bound (t :: sig) (front ++ rest) last why k := by
  have skip : ∀ j, (front ++ rest)[t.slots + j]? = rest[j]? := by
    intro j; rw [List.getElem?_append_right (by omega), hf, Nat.add_sub_cancel_left]
  rcases h with ⟨h1, h2, h3⟩ | ⟨h1, before, after, ⟨h2, h3, b, h4, h5⟩ | ⟨h2, h3, lo, hi, n, h4, h5, h6⟩⟩
  · left; simp [h1, hf]; omega
  · refine .inr ⟨h1, t :: before, after, .inl ⟨by rw [h2]; rfl, by simp; omega, b, ?_, h5⟩⟩
    rw [signatureSlots_cons, skip, h4]
  · refine .inr ⟨h1, t :: before, after, .inr ⟨by rw [h2]; rfl, by simp; omega, lo, hi, n, ?_, ?_, h6⟩⟩
    · rw [signatureSlots_cons, skip, h4]
    · rw [signatureSlots_cons, Nat.add_assoc, skip, h5]

/-- Everything an error of the operand phase can be: the bytes ran out, or the operand phase came to a register slot whose byte is 8 or more,
or to the high byte of a checked address out of bounds (R164, R166). -/
theorem loadOperands_error {bound : Option Nat} {sig : Signature} {bytes : List Byte} {last : Nat} {why : DecodeReject} {k : Nat}
    (h : loadOperands bound sig bytes last = .error (why, k)) : OperandPhaseError bound sig bytes last why k := by
  induction sig generalizing bytes last with
  | nil => simp [loadOperands] at h
  | cons t sig ih =>
    cases t with
    | register =>
      match bytes, h with
      | [], h => simp [loadOperands] at h; left; obtain ⟨rfl, rfl⟩ := h; simp [OperandType.slots]
      | b :: bytes, h =>
        simp only [loadOperands] at h
        split at h
        · cases hrec : loadOperands bound sig bytes (last + 1) with
          | ok o => simp [hrec, Except.map] at h
          | error e =>
            simp [hrec, Except.map] at h; subst h
            exact OperandPhaseError.cons .register [b] rfl (ih hrec)
        · rename_i hb
          simp at h; obtain ⟨rfl, rfl⟩ := h
          exact .inr ⟨rfl, [], sig, .inl ⟨rfl, rfl, b, rfl, Nat.not_lt.1 hb⟩⟩
    | value =>
      match bytes, h with
      | [], h => simp [loadOperands] at h; left; obtain ⟨rfl, rfl⟩ := h; simp [OperandType.slots]
      | b :: bytes, h =>
        simp only [loadOperands] at h
        cases hrec : loadOperands bound sig bytes (last + 1) with
        | ok o => simp [hrec, Except.map] at h
        | error e =>
          simp [hrec, Except.map] at h; subst h
          exact OperandPhaseError.cons .value [b] rfl (ih hrec)
    | address =>
      match bytes, h with
      | [], h => simp [loadOperands] at h; left; obtain ⟨rfl, rfl⟩ := h; simp [OperandType.slots]
      | [_], h => simp [loadOperands] at h; left; obtain ⟨rfl, rfl⟩ := h; simp [OperandType.slots]; omega
      | lo :: hi :: bytes, h =>
        simp only [loadOperands] at h
        split at h
        · cases hrec : loadOperands bound sig bytes (last + 2) with
          | ok o => simp [hrec, Except.map] at h
          | error e =>
            simp [hrec, Except.map] at h; subst h
            exact OperandPhaseError.cons .address [lo, hi] rfl (ih hrec)
        · rename_i hb
          simp at h; obtain ⟨rfl, rfl⟩ := h
          refine .inr ⟨rfl, [], sig, .inr ⟨rfl, rfl, lo, hi, ?_⟩⟩
          cases bound with
          | none => simp [addressInBound] at hb
          | some n => exact ⟨n, rfl, rfl, rfl, by simpa [addressInBound, addressOfBytes_toNat] using hb⟩

/-- Byte `d` behind the opcode byte of the fetched instruction is the ROM byte `d + 1` past `pc`. -/
theorem State.instrBytes_tail {s : State} {tl : List Byte} (htl : s.instrBytes = s.romRead s.pc :: tl) {d : Nat} {b : Byte}
    (h : tl[d]? = some b) : b = s.romRead (s.pc + BitVec.ofNat 16 (d + 1)) := by
  obtain ⟨hd, rfl⟩ := List.getElem?_eq_some_iff.1 h
  have hlen : d + 1 < s.instrBytes.length := by rw [htl]; simpa using hd
  have hget := s.fetchBytes_getElem (entryLength s.cfg (s.romRead s.pc)) s.pc (d + 1) hlen
  have heq : s.fetchBytes (entryLength s.cfg (s.romRead s.pc)) s.pc = s.romRead s.pc :: tl := htl
  rw [← hget]
  simp [heq]

/-- Which forms have checked addresses, and where an address of them can stand (R117, R166). -/
theorem addressBound_of_address {p : Config} {mnemonic : String} {before after : Signature} {n : Nat}
    (h : addressBound p mnemonic (before ++ .address :: after) = some n) :
    n = p.ramSize ∧
      ((mnemonic = "LOAD" ∧ before ++ .address :: after = [.register, .address] ∧ signatureSlots before + 2 = 3) ∨
        (mnemonic = "STORE" ∧ before ++ .address :: after = [.address, .register] ∧ signatureSlots before + 2 = 2) ∨
        (p.jumpRamCheck = true ∧ mnemonic = "JUMP" ∧ before ++ .address :: after = [.address] ∧
          signatureSlots before + 2 = 2)) := by
  unfold addressBound at h
  split at h
  · rename_i hcond
    refine ⟨(Option.some.inj h).symm, ?_⟩
    rcases hcond with ⟨h1, h2⟩ | ⟨h1, h2⟩ | ⟨h1, h2, h3⟩
    · refine .inl ⟨h1, h2, ?_⟩
      match before, h2 with
      | [], h2 => simp at h2
      | [.register], _ => rfl
      | [.value], h2 => simp at h2
      | [.address], h2 => simp at h2
      | _ :: _ :: _, h2 => simp at h2
    · refine .inr (.inl ⟨h1, h2, ?_⟩)
      match before, h2 with
      | [], _ => rfl
      | [_], h2 => simp at h2
      | _ :: _ :: _, h2 => simp at h2
    · refine .inr (.inr ⟨h1, h2, h3, ?_⟩)
      match before, h3 with
      | [], _ => rfl
      | _ :: _, h3 => simp at h3
  · cases h

/-- Everything a rejection of the bytes at `pc` can be (R114, R164, R166, R167, R169). -/
theorem State.decodeNext_reject {s : State} {why : DecodeReject} {last : Nat} (h : s.decodeNext = .reject why last) :
    match why with
    | .unknownOpcode => lookupOpcode s.cfg.table (s.romRead s.pc) = none ∧ last = 0
    | .operandRange => ∃ row, lookupOpcode s.cfg.table (s.romRead s.pc) = some row ∧
        ((∃ before after : Signature, row.signature = before ++ .register :: after ∧
            last = signatureSlots before + 1 ∧ 8 ≤ (s.romRead (s.pc + BitVec.ofNat 16 last)).toNat) ∨
          (((row.mnemonic = "LOAD" ∧ row.signature = [.register, .address] ∧ last = 3) ∨
              (row.mnemonic = "STORE" ∧ row.signature = [.address, .register] ∧ last = 2) ∨
              (s.cfg.jumpRamCheck = true ∧ row.mnemonic = "JUMP" ∧ row.signature = [.address] ∧ last = 2)) ∧
            s.cfg.ramSize ≤ (s.romRead (s.pc + BitVec.ofNat 16 last)).toNat * 256
              + (s.romRead ((s.pc + BitVec.ofNat 16 last) - 1)).toNat))
    | .noSemantics => ∃ row, lookupOpcode s.cfg.table (s.romRead s.pc) = some row ∧
        (∀ i : Instr, ¬ (i.mnemonic = row.mnemonic ∧ i.signature = row.signature)) ∧ last = signatureSlots row.signature
    | .bytesExhausted => s.cfg.pcWrap = .fault ∧ s.pc + BitVec.ofNat 16 last = 0xFFFF := by
  obtain ⟨tl, htl⟩ := s.instrBytes_eq
  unfold State.decodeNext at h; rw [htl] at h
  simp only [decode] at h
  cases hl : lookupOpcode s.cfg.table (s.romRead s.pc) with
  | none => simp [hl] at h; obtain ⟨rfl, rfl⟩ := h; exact ⟨rfl, rfl⟩
  | some row =>
    simp only [hl] at h
    cases ho : loadOperands (addressBound s.cfg row.mnemonic row.signature) row.signature tl 0 with
    | error e =>
      obtain ⟨w, k⟩ := e
      simp [ho] at h; obtain ⟨rfl, rfl⟩ := h
      rcases loadOperands_error ho with ⟨rfl, hk, hlt⟩ | ⟨rfl, before, after, ⟨hs, hk, b, hb, h8⟩ | ⟨hs, hk, lo, hi, n, hlo, hhi, hn, hle⟩⟩
      · have hlen := s.fetchBytes_length (entryLength s.cfg (s.romRead s.pc)) s.pc
        change s.instrBytes.length = _ at hlen
        rw [htl, show entryLength s.cfg (s.romRead s.pc) = 1 + signatureSlots row.signature by simp [entryLength, hl]] at hlen
        simp only [List.length_cons] at hlen
        cases hw : s.cfg.pcWrap with
        | wrap => rw [hw] at hlen; simp only at hlen; omega
        | fault =>
          rw [hw] at hlen; simp only [romSize] at hlen
          refine ⟨rfl, ?_⟩
          apply BitVec.eq_of_toNat_eq
          have := s.pc.isLt
          have h65 : (0xFFFF : Word).toNat = 65535 := rfl
          rw [h65]
          simp only [BitVec.toNat_add, BitVec.toNat_ofNat]
          omega
      · rw [Nat.zero_add] at hk
        exact ⟨row, rfl, .inl ⟨before, after, hs, hk, by rw [hk, ← State.instrBytes_tail htl hb]; exact h8⟩⟩
      · rw [Nat.zero_add] at hk
        rw [hs] at hn
        obtain ⟨rfl, hform⟩ := addressBound_of_address hn
        rw [← hs, ← hk] at hform
        refine ⟨row, rfl, .inr ⟨hform, ?_⟩⟩
        have hprev : s.pc + BitVec.ofNat 16 k - 1 = s.pc + BitVec.ofNat 16 (signatureSlots before + 1) := by
          rw [hk]
          apply BitVec.eq_of_toNat_eq
          have h1 : (1 : Word).toNat = 1 := rfl
          simp only [BitVec.toNat_sub, BitVec.toNat_add, BitVec.toNat_ofNat, h1]
          omega
        rw [hprev, ← State.instrBytes_tail htl hlo, hk, ← State.instrBytes_tail (d := signatureSlots before + 1) htl hhi]
        exact hle
    | ok ops =>
      simp only [ho] at h
      cases hi : instrOf row.mnemonic ops with
      | some j => simp [hi] at h
      | none =>
        simp [hi] at h; obtain ⟨rfl, rfl⟩ := h
        obtain ⟨h1, -, -⟩ := loadOperands_ok ho
        exact ⟨row, rfl, by have := instrOf_eq_none.1 hi; rwa [h1] at this, rfl⟩

/-! ## The memories of the states built from outside -/

/-- The memories of `State.reset` are in canonical form. -/
theorem State.reset_memory_wf : State.reset.rom.wf ∧ State.reset.ram.wf :=
  ⟨Memory.wf_nil, Memory.wf_nil⟩

/-- Placing bytes in ROM keeps its canonical form and its bound. -/
theorem State.placeBytes_rom {s : State} (hwf : s.rom.wf) (hb : Memory.below romSize s.rom) (a : Word) (bytes : List Byte) :
    (s.placeBytes a bytes).rom.wf ∧ Memory.below romSize (s.placeBytes a bytes).rom := by
  induction bytes generalizing s a with
  | nil => exact ⟨hwf, hb⟩
  | cons b bytes ih =>
    exact ih (s := { s with rom := s.rom.write a.toNat b }) (Memory.wf_write hwf _ _) (Memory.below_write hb a.isLt _) (a + 1)

end Sys2Proof.Machine
end

