-- ==== Sys2Proof/Laws/PerInstr.lean ====
section
/-!
SUPPORT. The families of statements made per instruction (LAWS.json).
-/

namespace Sys2Proof.Laws.EncodingLength

/-- The encoding of an instruction has the length its format gives it (R105, R107), from 1 to 4 bytes. -/
def Statement (i : Instr) : Prop := (encode i).length = i.length ∧ 1 ≤ i.length ∧ i.length ≤ 4

theorem nop : Statement .nop := ⟨encodeWith_length _ _, Nat.le_add_right 1 _, Nat.le_of_ble_eq_true rfl⟩
theorem jump (a : Word) : Statement (.jump a) := ⟨encodeWith_length _ _, Nat.le_add_right 1 _, Nat.le_of_ble_eq_true rfl⟩
theorem push (rs : Reg) : Statement (.push rs) := ⟨encodeWith_length _ _, Nat.le_add_right 1 _, Nat.le_of_ble_eq_true rfl⟩
theorem pop (rd : Reg) : Statement (.pop rd) := ⟨encodeWith_length _ _, Nat.le_add_right 1 _, Nat.le_of_ble_eq_true rfl⟩
theorem clear (rd : Reg) : Statement (.clear rd) := ⟨encodeWith_length _ _, Nat.le_add_right 1 _, Nat.le_of_ble_eq_true rfl⟩
theorem inc (rd : Reg) : Statement (.inc rd) := ⟨encodeWith_length _ _, Nat.le_add_right 1 _, Nat.le_of_ble_eq_true rfl⟩
theorem halt : Statement .halt := ⟨encodeWith_length _ _, Nat.le_add_right 1 _, Nat.le_of_ble_eq_true rfl⟩
theorem addReg (rd : Reg) (rs : Reg) : Statement (.addReg rd rs) := ⟨encodeWith_length _ _, Nat.le_add_right 1 _, Nat.le_of_ble_eq_true rfl⟩
theorem addImm (rd : Reg) (imm : Byte) : Statement (.addImm rd imm) := ⟨encodeWith_length _ _, Nat.le_add_right 1 _, Nat.le_of_ble_eq_true rfl⟩
theorem movReg (rd : Reg) (rs : Reg) : Statement (.movReg rd rs) := ⟨encodeWith_length _ _, Nat.le_add_right 1 _, Nat.le_of_ble_eq_true rfl⟩
theorem movImm (rd : Reg) (imm : Byte) : Statement (.movImm rd imm) := ⟨encodeWith_length _ _, Nat.le_add_right 1 _, Nat.le_of_ble_eq_true rfl⟩
theorem lpm (rd : Reg) (a : Word) : Statement (.lpm rd a) := ⟨encodeWith_length _ _, Nat.le_add_right 1 _, Nat.le_of_ble_eq_true rfl⟩
theorem load (rd : Reg) (a : Word) : Statement (.load rd a) := ⟨encodeWith_length _ _, Nat.le_add_right 1 _, Nat.le_of_ble_eq_true rfl⟩
theorem store (a : Word) (rs : Reg) : Statement (.store a rs) := ⟨encodeWith_length _ _, Nat.le_add_right 1 _, Nat.le_of_ble_eq_true rfl⟩

end Sys2Proof.Laws.EncodingLength
end

