-- ==== Sys2Proof/Tests/Slice0.lean ====
section
/-!
SUPPORT. Tests on fixed values. Expected results come from the spec: the vectors W1 to W16 and V1 to V92 of 95_test_vectors.md, and for a decode the
formats of R107 with the opcodes of R113. The last part shows, for every statement with hypotheses, a state and operands
that meet them.
-/

namespace Sys2Proof.Tests

open Sys2Proof Sys2Proof.Machine

/-! ## States to step from -/

/-- The reset state with the bytes in ROM from `a` on and `pc` at `a`. -/
def coreAt (a : Word) (bytes : List Byte) : State := { State.reset.placeBytes a bytes with pc := a }

/-- The same under `PC_WRAP = fault`. -/
def faultAt (a : Word) (bytes : List Byte) : State :=
  { coreAt a bytes with cfg := { referenceConfig with pcWrap := .fault } }

/-- The same with registers `r` and `q` set. -/
def with2 (s : State) (r : Reg) (v : Byte) (q : Reg) (w : Byte) : State := (s.setReg r v).setReg q w

/-- The reference table with one more entry. -/
def withRow (s : State) (row : TableRow) : State := { s with cfg := { s.cfg with table := referenceTable ++ [row] } }

/-- The next state of a step, if there is one. -/
def after (s : State) : Option State :=
  match step s with
  | .next t => some t
  | .fault _ => none
  | .refused _ => none

/-! ## Well-formedness: each check refuses an ill-formed term -/

theorem test_wf_load_outside_ram : Instr.wf referenceConfig (.load 0 0x0200) = false := by decide
theorem test_wf_store_outside_ram : Instr.wf referenceConfig (.store 0x0200 0) = false := by decide
theorem test_wf_last_ram_byte : Instr.wf referenceConfig (.load 0 0x01FF) = true := by decide
theorem test_wf_jump_checked : Instr.wf { referenceConfig with jumpRamCheck := true } (.jump 0x0200) = false := by decide
theorem test_wf_jump_unchecked : Instr.wf referenceConfig (.jump 0xFFFF) = true := by decide
theorem test_wf_reference_table : SyntaxTable.wf referenceTable := by decide
theorem test_wf_opcode_twice : ¬ SyntaxTable.wf [⟨0x00, "NOP", []⟩, ⟨0x00, "HALT", []⟩] := by decide
theorem test_wf_opcode_twice_in_one_mnemonic : ¬ SyntaxTable.wf [⟨0x07, "ADD", []⟩, ⟨0x07, "ADD", [.value]⟩] := by decide
theorem test_wf_reference_config : referenceConfig.wf := by decide
theorem test_wf_no_ram : ¬ Config.wf { referenceConfig with ramSize := 0 } := by decide
theorem test_wf_ram_too_large : ¬ Config.wf { referenceConfig with ramSize := 65537 } := by decide

/-! ## Decoding: one word for each constructor, from R107 and R113 -/

theorem test_decode_nop : decode referenceConfig [0x00] = .instr .nop := by decide
theorem test_decode_jump : decode referenceConfig [0x01, 0xFF, 0x00] = .instr (.jump 0x00FF) := by decide
theorem test_decode_push : decode referenceConfig [0x02, 0x03] = .instr (.push 3) := by decide
theorem test_decode_pop : decode referenceConfig [0x03, 0x05] = .instr (.pop 5) := by decide
theorem test_decode_clear : decode referenceConfig [0x04, 0x02] = .instr (.clear 2) := by decide
theorem test_decode_inc : decode referenceConfig [0x05, 0x07] = .instr (.inc 7) := by decide
theorem test_decode_halt : decode referenceConfig [0x06] = .instr .halt := by decide
theorem test_decode_add_register : decode referenceConfig [0x07, 0x00, 0x01] = .instr (.addReg 0 1) := by decide
theorem test_decode_add_value : decode referenceConfig [0x08, 0x06, 0xFF] = .instr (.addImm 6 0xFF) := by decide
theorem test_decode_mov_register : decode referenceConfig [0x09, 0x02, 0x06] = .instr (.movReg 2 6) := by decide
theorem test_decode_mov_value : decode referenceConfig [0x0A, 0x07, 0xFF] = .instr (.movImm 7 0xFF) := by decide
theorem test_decode_lpm : decode referenceConfig [0x0B, 0x01, 0xFE, 0xCA] = .instr (.lpm 1 0xCAFE) := by decide
theorem test_decode_load : decode referenceConfig [0x0C, 0x03, 0x10, 0x01] = .instr (.load 3 0x0110) := by decide
theorem test_decode_store : decode referenceConfig [0x0D, 0xFF, 0x01, 0x02] = .instr (.store 0x01FF 2) := by decide

/-- V1, V2. -/
theorem test_decode_unknown : decode referenceConfig [0x0E] = .reject .unknownOpcode 0 := by decide

/-- V66. -/
theorem test_decode_store_slot : decode referenceConfig [0x0D, 0xFF, 0x01, 0x09] = .reject .operandRange 3 := by decide

/-- The table's numbering: bit 0 is the least significant bit of the first byte. `STORE $0110, r7` is `0D 10 01 07`. -/
theorem test_decode_table_word : decodeTableWord 32 0x0701100D = some (.store 0x0110 7) := by decide
theorem test_decode_table_word_short : decodeTableWord 8 0x06 = some .halt := by decide

/-- V9, R107: the encoder writes the low byte of an address first. -/
theorem test_encode_lpm : encode (.lpm 1 0xCAFE) = [0x0B, 0x01, 0xFE, 0xCA] := by decide

/-! ## The cycle and the decoder (V1 to V13) -/

theorem test_V1_decode_error : after (coreAt 0 [0x0E]) =
    some { coreAt 0 [0x0E] with err := some ⟨.decodeError, 0, 0x0E⟩ } := by decide
theorem test_V3_register_slot_of_8 : after (coreAt 0 [0x02, 0x08]) =
    some { coreAt 0 [0x02, 0x08] with pc := 1, err := some ⟨.operandRange, 0, 0x02⟩ } := by decide
theorem test_V4_first_slot_out_of_range : after (coreAt 0 [0x08, 0x09, 0x00]) =
    some { coreAt 0 [0x08, 0x09, 0x00] with pc := 1, err := some ⟨.operandRange, 0, 0x08⟩ } := by decide
theorem test_V5_unimplemented : (after (withRow (coreAt 0 [0x20, 0x03]) ⟨0x20, "FOO", [.register]⟩)).map
    (fun t => (t.err, t.pc)) = some (some ⟨.unimplementedOpcode, 0, 0x20⟩, 1) := by decide
theorem test_V6_operands_before_dispatch : (after (withRow (coreAt 0 [0x20, 0x09]) ⟨0x20, "FOO", [.register]⟩)).map
    (fun t => (t.err, t.pc)) = some (some ⟨.operandRange, 0, 0x20⟩, 1) := by decide
theorem test_V7_add_of_an_address : (after (withRow (coreAt 0 [0x21, 0x00, 0x00]) ⟨0x21, "ADD", [.address]⟩)).map
    (fun t => (t.err, t.pc)) = some (some ⟨.unimplementedOpcode, 0, 0x21⟩, 2) := by decide
theorem test_V8_wrap : (after (coreAt 0xFFFF [0x00])).map State.pc = some 0x0000 := by decide
theorem test_V9_operands_wrap : (after (coreAt 0xFFFE [0x0A, 0x01, 0x07, 0x06])).map (fun t => (t.x[1], t.pc)) =
    some (0x07, 0x0001) := by decide
theorem test_V10_fault_at_advance : after (faultAt 0xFFFF [0x00]) =
    some { faultAt 0xFFFF [0x00] with err := some ⟨.pcWrap, 0xFFFF, 0x00⟩ } := by decide
theorem test_V11_halted : after { coreAt 0 [0x00] with h := true } = none := by decide
theorem test_V12_errored : after { coreAt 0 [0x00] with err := some ⟨.decodeError, 0, 0x0E⟩ } = none := by decide

/-- R113's remark: semantics follow the form, not the byte. -/
theorem test_form_selects_semantics : (after (withRow (coreAt 0 [0xFE]) ⟨0xFE, "HALT", []⟩)).map State.h = some true := by decide

/-! ## Control (V20 to V25) -/

theorem test_V20_nop : after (coreAt 0x0010 [0x00]) = some { coreAt 0x0010 [0x00] with pc := 0x0011 } := by decide
theorem test_V21_jump : (after (coreAt 0 [0x01, 0xFF, 0x00])).map State.pc = some 0x00FF := by decide
theorem test_V23_jump_checked :
    (after { coreAt 0 [0x01, 0x00, 0x02] with cfg := { referenceConfig with jumpRamCheck := true } }).map
      (fun t => (t.err, t.pc)) = some (some ⟨.operandRange, 0, 0x01⟩, 2) := by decide
theorem test_V25_halt : after { coreAt 0x0009 [0x06] with z := true, c := true } =
    some { coreAt 0x0009 [0x06] with z := true, c := true, h := true } := by decide

/-! ## Stack (V30 to V35) -/

theorem test_V30_push : (after ((coreAt 0 [0x02, 0x03]).setReg 3 0x2A)).map (fun t => (t.stk[0], t.sp.val, t.pc)) =
    some (0x2A, 1, 2) := by decide
theorem test_V33_overflow : after { coreAt 0 [0x02, 0x00] with sp := 32 } =
    some { coreAt 0 [0x02, 0x00] with sp := 32, pc := 1, err := some ⟨.stackOverflow, 0, 0x02⟩ } := by decide
theorem test_V35_pop : (after { coreAt 0 [0x03, 0x01] with sp := 1 }).map (fun t => (t.x[1], t.z, t.sp.val)) =
    some (0x00, false, 0) := by decide
theorem test_V34_underflow : (after ((coreAt 0 [0x03, 0x02]).setReg 2 0x55)).map (fun t => (t.x[2], t.err, t.pc)) =
    some (0x55, some ⟨.stackUnderflow, 0, 0x03⟩, 1) := by decide

/-! ## ALU (V40 to V49) -/

theorem test_V40_clear : (after { (coreAt 0 [0x04, 0x02]).setReg 2 0x7F with c := true }).map (fun t => (t.x[2], t.z, t.c)) =
    some (0x00, true, true) := by decide
theorem test_V41_inc : (after ((coreAt 0 [0x05, 0x00]).setReg 0 0x05)).map (fun t => (t.x[0], t.z, t.c)) =
    some (0x06, true, false) := by decide
theorem test_V43_inc_wraps : (after ((coreAt 0 [0x05, 0x01]).setReg 1 0xFF)).map (fun t => (t.x[1], t.z, t.c)) =
    some (0x00, false, true) := by decide
theorem test_V45_add_register : (after (with2 (coreAt 0 [0x07, 0x00, 0x01]) 0 3 1 2)).map (fun t => (t.x[0], t.x[1], t.z, t.c)) =
    some (5, 2, false, false) := by decide
theorem test_V46_add_to_itself : (after ((coreAt 0 [0x07, 0x04, 0x04]).setReg 4 0x80)).map (fun t => (t.x[4], t.z, t.c)) =
    some (0x00, true, true) := by decide
theorem test_V47_add_value : (after ((coreAt 0 [0x08, 0x00, 0x0A]).setReg 0 0xFA)).map (fun t => (t.x[0], t.z, t.c)) =
    some (0x04, false, true) := by decide
theorem test_V48_add_zero_clears_carry : (after { coreAt 0 [0x08, 0x05, 0x00] with c := true }).map (fun t => (t.x[5], t.z, t.c)) =
    some (0x00, true, false) := by decide

/-! ## Moves (V50 to V54) -/

theorem test_V50_mov_register : (after ((coreAt 0 [0x09, 0x02, 0x06]).setReg 6 0x11)).map (fun t => (t.x[2], t.x[6], t.z)) =
    some (0x11, 0x11, false) := by decide
theorem test_V54_mov_second_slot : (after (coreAt 0 [0x09, 0x00, 0x08])).map (fun t => (t.err, t.pc)) =
    some (some ⟨.operandRange, 0, 0x09⟩, 2) := by decide
theorem test_V51_mov_value_keeps_flags : (after { coreAt 0 [0x0A, 0x00, 0x00] with c := true }).map
    (fun t => (t.x[0], t.z, t.c)) = some (0x00, false, true) := by decide

/-! ## Memory access (V60 to V69) -/

theorem test_V60_lpm : (after (coreAt 0 [0x0B, 0x05, 0x00, 0x00])).map (fun t => (t.x[5], t.z, t.pc)) =
    some (0x0B, false, 4) := by decide
theorem test_V69_lpm_reads_rom : (after ((coreAt 0 [0x0B, 0x04, 0x20, 0x00]).ramWrite 0x0020 0x77)).map
    (fun t => t.x[4]) = some 0x00 := by decide
theorem test_V68_load : (after { (coreAt 0 [0x0C, 0x03, 0x10, 0x00]).ramWrite 0x0010 0xFF with z := true }).map
    (fun t => (t.x[3], t.z)) = some (0xFF, false) := by decide
theorem test_V63_load_outside : (after (coreAt 0 [0x0C, 0x00, 0x00, 0x02])).map (fun t => (t.err, t.pc)) =
    some (some ⟨.operandRange, 0, 0x0C⟩, 3) := by decide
theorem test_V67_store : (after ((coreAt 0 [0x0D, 0x10, 0x00, 0x02]).setReg 2 0xFF)).map (fun t => (t.ram, t.pc)) =
    some ([(0x0010, 0xFF)], 4) := by decide
theorem test_V65_store_outside : (after (coreAt 0 [0x0D, 0x00, 0x02, 0x01])).map (fun t => (t.err, t.pc, t.ram)) =
    some (some ⟨.operandRange, 0, 0x0D⟩, 2, []) := by decide
/-! ## The first step after reset, and the ports -/

theorem test_fetch_word_runs_first : (after (State.reset.withFetchWord 24 0xFF070A)).map (fun t => (t.x[7], t.pc)) =
    some (0xFF, 3) := by decide
theorem test_error_ports : (after (coreAt 0 [0x0E])).map (fun t => (errValidPort t, errCodePort t, errOpcodePort t, haltedPort t)) =
    some (true, 1, some 0x0E, false) := by decide
theorem test_boot_refuses : boot { referenceConfig with ramSize := 0 } [] [] = .error .ramSizeIllegal := by decide
theorem test_load_table_refuses : loadTable [("NOP", [(256, [])])] = .error .syntaxTableLoadError := by decide

/-! ## The assembler (V80 to V92, W6, W7) -/

/-- The cells an assembly writes, or the error's kind and line. -/
def assembled (text : String) : Memory ⊕ (AsmErrorKind × Nat) :=
  match assemble referenceTable text.toList with
  | .ok image => .inl image
  | .error e => .inr (e.kind, e.line)

theorem test_V81_assemble_mov : assembled "MOV r0 , #3   ; comment" = .inl [(0, 0x0A), (2, 0x03)] := by decide
theorem test_V82_assemble_store : assembled "STORE $dead, r7" = .inl [(0, 0x0D), (1, 0xAD), (2, 0xDE), (3, 0x07)] := by decide
theorem test_V83_assemble_leading_zero : assembled "ADD r1, #0FF" = .inl [(0, 0x08), (1, 0x01), (2, 0xFF)] := by decide
theorem test_V85_case_sensitive : assembled "mov r0, #3" = .inr (.syntaxError, 1) := by decide
theorem test_V86_no_variant : assembled "MOV r0" = .inr (.encodingError, 1) := by decide
theorem test_V89_text_operand : assembled ".text #10" = .inr (.syntaxError, 1) := by decide
theorem test_V90_byte_arity : assembled "HALT\n.byte $0010" = .inr (.syntaxError, 2) := by decide
theorem test_V91_overflow : assembled ".text $FFFF\nMOV r0, #1" = .inr (.encodingError, 2) := by decide
theorem test_V92_comment : assembled "; only a comment\n" = .inl [] := by decide
theorem test_W7_directives : assembled ".byte $0101 #42\n.text $00FF\nHALT" = .inl [(0x00FF, 0x06), (0x0101, 0x42)] := by decide

/-! ## Hypotheses are met -/

/-- The hypotheses of an encoding part (`EncodedAs`) and of an out-of-range part (`OutOfRangeAt`) are met by the reference configuration, the
least and the greatest slot byte out of range. -/
theorem witness_EncodedAs_OutOfRangeAt : Binds referenceConfig 0x0C "LOAD" [.register, .address] ∧
    Instr.wf referenceConfig (.load 0 0x01FF) = true ∧ Binds referenceConfig 0x0D "STORE" [.address, .register] ∧
    Instr.wf referenceConfig (.store 0 7) = true ∧ Binds referenceConfig 0x02 "PUSH" [.register] ∧
    8 ≤ (0x08 : Byte).toNat ∧ 8 ≤ (0xFF : Byte).toNat :=
  ⟨⟨_, rfl, rfl, rfl⟩, by decide, ⟨_, rfl, rfl, rfl⟩, by decide, ⟨_, rfl, rfl, rfl⟩, by decide, by decide⟩

/-- Under `PC_WRAP = fault` the last address from which one increment succeeds; under `wrap` there is none. -/
theorem witness_NopRule : (faultAt 0xFFFE [0x00]).pcFits 1 = true ∧ (coreAt 0xFFFF [0x00]).pcFits 1 = true := by decide

theorem witness_JumpRule : (faultAt 0xFFFD [0x01, 0xFF, 0xFF]).pcFits 2 = true ∧
    (faultAt 0xFFFD [0x01, 0xFF, 0xFF]).cfg.jumpRamCheck = false := by decide

/-- Both clauses of PUSH, at `sp = 31` and at `sp = 32`. -/
theorem witness_PushRule : ({ faultAt 0xFFFD [0x02, 0x00] with sp := 31 } : State).sp.val < 32 ∧
    ({ faultAt 0xFFFD [0x02, 0x00] with sp := 31 } : State).pcFits 2 = true ∧
    ({ faultAt 0xFFFE [0x02, 0x00] with sp := 32 } : State).sp.val = 32 ∧
    ({ faultAt 0xFFFE [0x02, 0x00] with sp := 32 } : State).pcFits 1 = true := by decide

/-- Both clauses of POP, at `sp = 1` and at `sp = 0`. -/
theorem witness_PopRule : 0 < ({ faultAt 0xFFFD [0x03, 0x00] with sp := 1 } : State).sp.val ∧
    ({ faultAt 0xFFFD [0x03, 0x00] with sp := 1 } : State).pcFits 2 = true ∧
    (faultAt 0xFFFE [0x03, 0x00]).sp.val = 0 ∧ (faultAt 0xFFFE [0x03, 0x00]).pcFits 1 = true := by decide

theorem witness_ClearRule : (faultAt 0xFFFD [0x04, 0x07]).pcFits 2 = true := by decide
theorem witness_IncRule : (faultAt 0xFFFD [0x05, 0x07]).pcFits 2 = true ∧
    (faultAt 0xFFFD [0x05, 0x07]).cfg.incZeroMode = .index := by decide
theorem witness_AddRegisterRule : (faultAt 0xFFFC [0x07, 0x00, 0x07]).pcFits 3 = true := by decide
theorem witness_AddImmediateRule : (faultAt 0xFFFC [0x08, 0x00, 0xFF]).pcFits 3 = true := by decide
theorem witness_MoveRegisterRule : (faultAt 0xFFFC [0x09, 0x00, 0x07]).pcFits 3 = true := by decide
theorem witness_MoveImmediateRule : (faultAt 0xFFFC [0x0A, 0x00, 0xFF]).pcFits 3 = true := by decide
theorem witness_LpmRule : (faultAt 0xFFFB [0x0B, 0x00, 0xFF, 0xFF]).pcFits 4 = true := by decide

/-- LOAD at the last RAM address, and the first address out of range. -/
theorem witness_LoadRule : (faultAt 0xFFFB [0x0C, 0x00, 0xFF, 0x01]).pcFits 4 = true ∧
    (0x01FF : Word).toNat < (faultAt 0xFFFB [0x0C, 0x00, 0xFF, 0x01]).cfg.ramSize ∧
    referenceConfig.ramSize ≤ (0x02 : Byte).toNat * 256 + (0x00 : Byte).toNat := by decide

/-- STORE at the last RAM address, the first address out of range, and the register slot out of range. -/
theorem witness_StoreRule : (faultAt 0xFFFB [0x0D, 0xFF, 0x01, 0x00]).pcFits 4 = true ∧
    (0x01FF : Word).toNat < (faultAt 0xFFFB [0x0D, 0xFF, 0x01, 0x00]).cfg.ramSize ∧
    (faultAt 0xFFFB [0x0D, 0xFF, 0x01, 0x00]).ram.wf ∧
    referenceConfig.ramSize ≤ (0x02 : Byte).toNat * 256 + (0x00 : Byte).toNat ∧
    (0x01 : Byte).toNat * 256 + (0xFF : Byte).toNat < referenceConfig.ramSize ∧ 8 ≤ (0x08 : Byte).toNat := by decide

/-- A completion and an error entry for every form the frames of registers speak of. -/
theorem witness_MoveAndLpmFrame : (∃ t, exec (.movReg 0 7) (coreAt 0 []) = .next t ∧ t.err = none) ∧
    (∃ t, exec (.movImm 0 0xFF) (faultAt 0xFFFD []) = .next t ∧ t.err ≠ none) ∧
    ∃ t, exec (.lpm 7 0xFFFF) (coreAt 0xFFFF []) = .next t ∧ t.err = none :=
  ⟨⟨_, rfl, by decide⟩, ⟨_, rfl, by decide⟩, ⟨_, rfl, by decide⟩⟩

theorem witness_ClearAndLoadFrame : (∃ t, exec (.clear 7) (coreAt 0 []) = .next t ∧ t.err = none) ∧
    (∃ t, exec (.load 0 0x01FF) (coreAt 0 []) = .next t ∧ t.err = none) ∧
    ∃ t, exec (.load 0 0x0200) (coreAt 0 []) = .next t ∧ t.err ≠ none :=
  ⟨⟨_, rfl, by decide⟩, ⟨_, rfl, by decide⟩, ⟨_, rfl, by decide⟩⟩

theorem witness_IncAndAddFrame : (∃ t, exec (.inc 0) (coreAt 0 []) = .next t ∧ t.err = none) ∧
    (∃ t, exec (.addReg 0 0) (coreAt 0 []) = .next t ∧ t.err = none) ∧
    ∃ t, exec (.addImm 7 0xFF) (faultAt 0xFFFD []) = .next t ∧ t.err ≠ none :=
  ⟨⟨_, rfl, by decide⟩, ⟨_, rfl, by decide⟩, ⟨_, rfl, by decide⟩⟩

/-- PUSH and POP where they complete and where they enter an error. -/
theorem witness_StackFrame : (∃ t, exec (.push 0) { coreAt 0 [] with sp := 31 } = .next t ∧ t.sp.val = 32) ∧
    (∃ t, exec (.push 0) { coreAt 0 [] with sp := 32 } = .next t ∧ t.err ≠ none) ∧
    (∃ t, exec (.pop 0) { coreAt 0 [] with sp := 1 } = .next t ∧ t.sp.val = 0) ∧
    ∃ t, exec (.pop 0) (coreAt 0 []) = .next t ∧ t.err ≠ none :=
  ⟨⟨_, rfl, by decide⟩, ⟨_, rfl, by decide⟩, ⟨_, rfl, by decide⟩, ⟨_, rfl, by decide⟩⟩

theorem witness_StoreFrame : (∃ t, exec (.store 0x01FF 0) ((coreAt 0 []).setReg 0 0x42) = .next t ∧ t.ramRead 0x01FF = 0x42) ∧
    ∃ t, exec (.store 0x0200 0) (coreAt 0 []) = .next t ∧ t.err ≠ none :=
  ⟨⟨_, rfl, by decide⟩, ⟨_, rfl, by decide⟩⟩

theorem witness_ControlFrame : (∃ t, exec .nop (coreAt 0xFFFF []) = .next t ∧ t.err = none) ∧
    (∃ t, exec (.jump 0xFFFF) (coreAt 0 []) = .next t ∧ t.pc = 0xFFFF) ∧
    ∃ t, exec .halt (coreAt 0 []) = .next t ∧ t.h = true :=
  ⟨⟨_, rfl, by decide⟩, ⟨_, rfl, by decide⟩, ⟨_, rfl, by decide⟩⟩

/-- A completion of an instruction of each length, of a JUMP and of a HALT. -/
theorem witness_ProgramCounterTable : (∃ t, exec .nop (coreAt 0 []) = .next t ∧ t.err = none) ∧
    (∃ t, exec (.jump 0) (coreAt 0 []) = .next t ∧ t.err = none) ∧ (∃ t, exec .halt (coreAt 0 []) = .next t ∧ t.err = none) ∧
    (∃ t, exec (.clear 0) (coreAt 0 []) = .next t ∧ t.err = none) ∧ (∃ t, exec (.addReg 0 1) (coreAt 0 []) = .next t ∧ t.err = none) ∧
    ∃ t, exec (.store 0x01FF 0) (coreAt 0 []) = .next t ∧ t.err = none :=
  ⟨⟨_, rfl, by decide⟩, ⟨_, rfl, by decide⟩, ⟨_, rfl, by decide⟩, ⟨_, rfl, by decide⟩, ⟨_, rfl, by decide⟩, ⟨_, rfl, by decide⟩⟩

theorem witness_FlagTable : (∃ t, exec (.inc 1) ((coreAt 0 []).setReg 1 0xFF) = .next t ∧ t.err = none ∧ t.c = true) ∧
    (∃ t, exec (.load 0 0x01FF) (coreAt 0 []) = .next t ∧ t.err = none ∧ t.z = true) ∧
    (coreAt 0 []).cfg.incZeroMode = .index :=
  ⟨⟨_, rfl, by decide⟩, ⟨_, rfl, by decide⟩, rfl⟩

/-- A step that is an instruction with a destination, and one that is an error of the operand phase. -/
theorem witness_OnlyTheDestinationRegisterChanges :
    (∃ t, step (coreAt 0 [0x05, 0x07]) = .next t ∧ (coreAt 0 [0x05, 0x07]).decodeNext = .instr (.inc 7)) ∧
    ∃ t, step (coreAt 0 [0x05, 0x08]) = .next t ∧ (coreAt 0 [0x05, 0x08]).decodeNext = .reject .operandRange 1 :=
  ⟨⟨_, rfl, by decide⟩, ⟨_, rfl, by decide⟩⟩

theorem witness_RomAndConfigurationNeverChange : ∃ t, step (coreAt 0 [0x0D, 0x10, 0x00, 0x02]) = .next t ∧ t.err = none :=
  ⟨_, rfl, by decide⟩

theorem witness_OnlyStoreWritesRam : ∃ t, step ((coreAt 0 [0x0D, 0xFF, 0x01, 0x02]).setReg 2 0x42) = .next t ∧
    t.ramRead 0x01FF ≠ ((coreAt 0 [0x0D, 0xFF, 0x01, 0x02]).setReg 2 0x42).ramRead 0x01FF :=
  ⟨_, rfl, by decide⟩

theorem witness_OnlyHaltSetsTheHaltFlag : (∃ t, step (coreAt 0 [0x06]) = .next t ∧ t.h = true) ∧
    ∃ t, exec .nop { coreAt 0 [0x00] with h := true } = .next t ∧ t.h = true :=
  ⟨⟨_, rfl, by decide⟩, ⟨_, rfl, by decide⟩⟩

theorem witness_StepRunsTheDecodedInstruction : (coreAt 0xFFFE [0x0A, 0x01, 0x07]).Enabled ∧
    entryLength referenceConfig ((coreAt 0xFFFE [0x0A, 0x01, 0x07]).romRead 0xFFFE) ≤ 3 ∧
    decode referenceConfig ((coreAt 0xFFFE [0x0A, 0x01, 0x07]).fetchBytes 3 0xFFFE) = .instr (.movImm 1 0x07) ∧
    (coreAt 0 [0x0C, 0x07, 0x00, 0x02]).Enabled ∧
    entryLength referenceConfig ((coreAt 0 [0x0C, 0x07, 0x00, 0x02]).romRead 0) ≤ 4 ∧
    decode referenceConfig ((coreAt 0 [0x0C, 0x07, 0x00, 0x02]).fetchBytes 4 0) = .reject .operandRange 3 := by decide

theorem witness_StepRunsAnEncodedInstruction : (faultAt 0xFFFC [0x0D, 0xFF, 0x01, 0x07]).Enabled ∧
    lookupOpcode referenceTable ((faultAt 0xFFFC [0x0D, 0xFF, 0x01, 0x07]).romRead 0xFFFC) = some ⟨0x0D, "STORE", [.address, .register]⟩ ∧
    Instr.mnemonic (.store 0x01FF 7) = "STORE" ∧ Instr.signature (.store 0x01FF 7) = [.address, .register] ∧
    Instr.wf referenceConfig (.store 0x01FF 7) = true ∧ (faultAt 0xFFFC [0x0D, 0xFF, 0x01, 0x07]).pcFits 3 = true ∧
    encodeWith 0x0D (.store 0x01FF 7) = (faultAt 0xFFFC [0x0D, 0xFF, 0x01, 0x07]).fetchBytes 4 0xFFFC := by decide

/-- A running, a halted and an errored state. -/
theorem witness_StepIsEnabledExactlyWhenRunning : (coreAt 0 []).Enabled ∧ ({ coreAt 0 [] with h := true } : State).h = true ∧
    ({ coreAt 0 [] with err := some ⟨.pcWrap, 0, 0⟩ } : State).h = false ∧
    ({ coreAt 0 [] with err := some ⟨.pcWrap, 0, 0⟩ } : State).err ≠ none := by decide

theorem witness_ErrorsArePrecise : (∃ t, step (coreAt 0 [0x0E]) = .next t ∧ t.err ≠ none) ∧
    ∃ t, step (faultAt 0xFFFD [0x0A, 0x01, 0x07]) = .next t ∧ t.err ≠ none ∧ t.x[1] = 0x07 :=
  ⟨⟨_, rfl, by decide⟩, ⟨_, rfl, by decide⟩⟩

/-- An error of each kind, `OperandRangeError` at a register slot and at a checked address. -/
theorem witness_ErrorKindsHaveTheirCauses :
    (∃ t, step (coreAt 0 [0x0E]) = .next t ∧ t.err = some ⟨.decodeError, 0, 0x0E⟩) ∧
    (∃ t, step (coreAt 0 [0x0C, 0x00, 0x00, 0x02]) = .next t ∧ t.err = some ⟨.operandRange, 0, 0x0C⟩) ∧
    (∃ t, step (coreAt 0 [0x0C, 0x08, 0x00, 0x00]) = .next t ∧ t.err = some ⟨.operandRange, 0, 0x0C⟩) ∧
    (∃ t, step (withRow (coreAt 0 [0x20, 0x03]) ⟨0x20, "FOO", [.register]⟩) = .next t ∧ t.err = some ⟨.unimplementedOpcode, 0, 0x20⟩) ∧
    (∃ t, step { coreAt 0 [0x02, 0x00] with sp := 32 } = .next t ∧ t.err = some ⟨.stackOverflow, 0, 0x02⟩) ∧
    (∃ t, step (coreAt 0 [0x03, 0x00]) = .next t ∧ t.err = some ⟨.stackUnderflow, 0, 0x03⟩) ∧
    ∃ t, step (faultAt 0xFFFF [0x0A]) = .next t ∧ t.err = some ⟨.pcWrap, 0xFFFF, 0x0A⟩ :=
  ⟨⟨_, rfl, by decide⟩, ⟨_, rfl, by decide⟩, ⟨_, rfl, by decide⟩, ⟨_, rfl, by decide⟩, ⟨_, rfl, by decide⟩, ⟨_, rfl, by decide⟩, ⟨_, rfl, by decide⟩⟩

theorem witness_ConservativeParameterReadings : (faultAt 0xFFFF [0x0A]).Enabled ∧
    lookupOpcode referenceTable ((faultAt 0xFFFF [0x0A]).romRead 0xFFFF) = some ⟨0x0A, "MOV", [.register, .value]⟩ ∧
    lookupOpcode referenceTable ((faultAt 0xFFFF [0x00]).romRead 0xFFFF) = some ⟨0x00, "NOP", []⟩ ∧
    (faultAt 0xFFFF [0x0A]).cfg.pcWrap = .fault ∧ (faultAt 0xFFFD []).pc = 0xFFFD ∧
    (faultAt 0xFFFD []).pcFits 2 = true ∧
    (Config.jumpRamCheck { referenceConfig with jumpRamCheck := true, incZeroMode := .result }) = true ∧
    (Config.incZeroMode { referenceConfig with jumpRamCheck := true, incZeroMode := .result }) = .result := by decide

/-- An opcode with no entry, operands that fail at a register slot of 8, at an address at `RAM_SIZE` and at the end of the bytes, and a defined form and
another entry with their operands read. -/
theorem witness_DecodingHasThreeOutcomes : (coreAt 0 [0x0E]).Enabled ∧
    lookupOpcode referenceTable 0x0E = none ∧
    lookupOpcode referenceTable 0x0C = some ⟨0x0C, "LOAD", [.register, .address]⟩ ∧
    loadOperands (addressBound referenceConfig "LOAD" [.register, .address]) [.register, .address]
      ((coreAt 0 [0x0C, 0x08, 0x00, 0x00]).fetchBytes 4 0).tail 0 = .error (.operandRange, 1) ∧
    loadOperands (addressBound referenceConfig "LOAD" [.register, .address]) [.register, .address]
      ((coreAt 0 [0x0C, 0x07, 0x00, 0x02]).fetchBytes 4 0).tail 0 = .error (.operandRange, 3) ∧
    loadOperands none [.register, .value] ((faultAt 0xFFFE [0x0A, 0x01]).fetchBytes 3 0xFFFE).tail 0 = .error (.bytesExhausted, 1) ∧
    loadOperands none [.register, .value] ((coreAt 0 [0x0A, 0x01, 0x07]).fetchBytes 3 0).tail 0 = .ok [.register 1, .value 0x07] ∧
    Instr.operands (.movImm 1 0x07) = [.register 1, .value 0x07] ∧
    lookupOpcode (referenceTable ++ [⟨0x20, "FOO", [.register]⟩]) 0x20 = some ⟨0x20, "FOO", [.register]⟩ ∧
    loadOperands none [.register] ((coreAt 0 [0x20, 0x03]).fetchBytes 2 0).tail 0 = .ok [.register 3] ∧
    ∀ i : Instr, ¬ (i.mnemonic = "FOO" ∧ i.signature = [.register]) :=
  ⟨by decide, by decide, by decide, by decide, by decide, by decide, by decide, by decide, by decide, by decide, fun i h => by cases i <;> simp [Instr.mnemonic] at h⟩

theorem witness_DecodeOfEncode : lookupOpcode referenceConfig.table 0x0C = some ⟨0x0C, "LOAD", [.register, .address]⟩ ∧
    Instr.mnemonic (.load 7 0x01FF) = "LOAD" ∧ Instr.signature (.load 7 0x01FF) = [.register, .address] ∧
    Instr.wf referenceConfig (.load 7 0x01FF) = true := by decide

theorem witness_EncodeOfDecode : decode referenceConfig [0x0C, 0x07, 0xFF, 0x01, 0x99] = .instr (.load 7 0x01FF) := by decide

theorem witness_InstructionLength : lookupOpcode referenceConfig.table 0x0D = some ⟨0x0D, "STORE", [.address, .register]⟩ := by decide

/-- The third operand of a six-byte entry that is no defined form, its slot 8 and 255. -/
theorem witness_RegisterSlotOutOfRange : [0x07, 0xFF, 0xFF, (0x00 : Byte)].length = signatureSlots [.register, .address, .value] ∧
    loadOperands none [.register, .address, .value] [0x07, 0xFF, 0xFF, 0x00] 0 = .ok [.register 7, .address 0xFFFF, .value 0x00] ∧
    8 ≤ (0x08 : Byte).toNat ∧ 8 ≤ (0xFF : Byte).toNat := by decide

theorem witness_AddressOperandIsLittleEndian : loadOperands none [.register] [0x07] 2 = .ok [.register 7] := by decide

theorem witness_RamAccessIsBounded : (faultAt 0xFFFC []).pcFits 3 = true ∧
    (faultAt 0xFFFC []).cfg.ramSize ≤ (0x0200 : Word).toNat ∧ (faultAt 0xFFFC []).cfg.ramSize ≤ (0xFFFF : Word).toNat := by decide

theorem witness_LoadReturnsTheLastStore : (coreAt 0 []).ram.wf ∧ (coreAt 0 []).cfg.pcWrap = .wrap ∧
    (0x01FF : Word).toNat < (coreAt 0 []).cfg.ramSize ∧ (0x0000 : Word).toNat < (coreAt 0 []).cfg.ramSize := by decide

theorem witness_StackIsLifo : ({ coreAt 0 [] with sp := 31 } : State).sp.val < 32 ∧ (coreAt 0 []).sp.val = 0 ∧
    (List.replicate 32 (0xAA : Byte)).length ≤ 32 ∧ (List.replicate 33 (0xAA : Byte)).length = 33 := by decide

theorem witness_PopsReverseThePushes : ∃ t, [0x01, 0x02, (0x03 : Byte)].foldlM State.stackPush (coreAt 0 []) = some t ∧ t.sp.val = 3 :=
  ⟨_, rfl, by decide⟩

/-- Two states that differ in `Z` and `C`, and a step that writes them. -/
theorem witness_ZeroAndCarryAreNeverRead : SameButZeroCarry (coreAt 0 [0x05, 0x01]) { coreAt 0 [0x05, 0x01] with z := true, c := true } ∧
    ∃ t, step (coreAt 0 [0x05, 0x01]) = .next t ∧ t.err = none :=
  ⟨rfl, ⟨_, rfl, by decide⟩⟩

/-- Two states that differ in the stack entry above `sp`, and the PUSH that writes it. -/
theorem witness_DeadStackEntriesAreNeverRead :
    SameButDeadStack (coreAt 0 [0x02, 0x01]) { coreAt 0 [0x02, 0x01] with stk := (Vector.replicate stackDepth 0x00).set 0 0xAA } ∧
    ∃ t, step (coreAt 0 [0x02, 0x01]) = .next t ∧ t.sp.val = 1 :=
  ⟨⟨rfl, fun k _ hk => absurd hk (Nat.not_lt_zero k)⟩, ⟨_, rfl, by decide⟩⟩

/-- A state of the invariant and a step from it. -/
theorem witness_StepKeepsTheInvariant : ∃ s t : State, s.Inv ∧ s.ram ≠ [] ∧ step s = .next t :=
  ⟨{ State.reset with ram := [(0x01FF, 0x42)] }, _,
    ⟨by decide, by decide, by decide, by decide, by decide, nofun, nofun⟩, by decide, rfl⟩

/-- A configuration and buffers that boot, and a table that does not. -/
theorem witness_BootGivesASoundRunningCore : referenceConfig.wf ∧ Memory.wf [(0xFFFF, 0x06)] ∧ Memory.below romSize [(0xFFFF, 0x06)] ∧
    Memory.wf [(0x01FF, 0x42)] ∧ Memory.below referenceConfig.ramSize [(0x01FF, 0x42)] ∧
    ¬ SyntaxTable.wf [⟨0x00, "NOP", []⟩, ⟨0x00, "HALT", []⟩] := by decide

theorem witness_LoadedTablesAreWellFormed : loadTable [("NOP", [(0, [])]), ("ADD", [(254, ["register", "value"]), (255, ["address"])])] =
    .ok [⟨0x00, "NOP", []⟩, ⟨0xFE, "ADD", [.register, .value]⟩, ⟨0xFF, "ADD", [.address]⟩] := by decide

theorem witness_TheEndStateIsUnique : ∃ t, EndsIn (coreAt 0 [0x00, 0x06]) t ∧ t.pc = 0x0001 :=
  ⟨_, ⟨2, rfl, by decide⟩, by decide⟩

theorem witness_JumpToItselfNeverEnds : (faultAt 0xFFFD [0x01, 0xFD, 0xFF]).Enabled ∧
    (faultAt 0xFFFD [0x01, 0xFD, 0xFF]).cfg.jumpRamCheck = false ∧ (faultAt 0xFFFD [0x01, 0xFD, 0xFF]).pcFits 2 = true ∧
    (faultAt 0xFFFD [0x01, 0xFD, 0xFF]).decodeNext = .instr (.jump 0xFFFD) := by decide

/-- The last place a four-byte instruction fits. -/
theorem witness_AssembleThenDecode : referenceConfig.wf ∧ Instr.wf referenceConfig (.store 0x01FF 7) = true ∧ Memory.wf [] ∧
    (⟨0x0D, "STORE", [.address, .register]⟩ ∈ referenceConfig.table) ∧ 65532 + Instr.length (.store 0x01FF 7) ≤ 65536 := by decide

/-- Operands in a spelling that is not canonical, an emission that passes 0xFFFF and one that just fits. -/
theorem witness_DirectivesAndOverflow : Memory.wf [(0x0010, 0x42)] ∧
    parseOperands [.address] ["$0dead".toList] = some [.address 0xDEAD] ∧
    parseOperands [.address, .value] ["$0".toList, "#0fF".toList] = some [.address 0x0000, .value 0xFF] ∧
    "MOV".toList ≠ ".text".toList ∧ "MOV".toList ≠ ".byte".toList ∧
    matchVariant (variantsOf referenceTable "MOV".toList) ["r0".toList, "#1".toList] = some [0x0A, 0x00, 0x01] ∧
    65536 < 65534 + [0x0A, 0x00, (0x01 : Byte)].length ∧ 65533 + [0x0A, 0x00, (0x01 : Byte)].length ≤ 65536 := by decide

/-- Tokens that a variant parses, and tokens that none does. -/
theorem witness_InstructionMatching :
    matchVariant (variantsOf referenceTable "MOV".toList) ["r0".toList, "#3".toList] = some [0x0A, 0x00, 0x03] ∧
    matchVariant (variantsOf referenceTable "MOV".toList) ["r0".toList, "r8".toList] = none := by decide

/-- Operands no directive takes, an unknown mnemonic, a known one without a matching variant, and an error after lines without one. -/
theorem witness_AssemblyErrors : parseOperands [.address] ["#10".toList] = none ∧
    parseOperands [.address, .value] ["$0010".toList] = none ∧ (∀ row ∈ referenceTable, row.mnemonic.toList ≠ "mov".toList) ∧
    (∃ row ∈ referenceTable, row.mnemonic.toList = "PUSH".toList) ∧
    (∀ row ∈ referenceTable, row.mnemonic.toList = "PUSH".toList → parseOperands row.signature ["#01".toList] = none) ∧
    assembleLines referenceTable 1 ⟨0, []⟩ ["HALT".toList] = .ok ⟨1, [(0, 0x06)]⟩ ∧
    assembleLine referenceTable 2 ⟨1, [(0, 0x06)]⟩ "PUSH #01".toList
      = .error ⟨.encodingError, 2, ["PUSH".toList, "#01".toList]⟩ := by decide

end Sys2Proof.Tests
end

section
/-!
The invariant is kept by every step (O49). The shared part says which facts about a next state give the invariant there; the two kinds of
step, the meaning of a decoded instruction and the error entry of a rejection, then give those facts.
-/

namespace Sys2Proof.Machine

/-! ## What a meaning does to the fields of the invariant -/

/-- Every write to RAM is at a legal address (R63, R67). -/
theorem exec_ram_cases {i : Instr} {s t : State} (h : exec i s = .next t) :
    t.ram = s.ram ∨ ∃ (a : Word) (v : Byte), a.toNat < s.cfg.ramSize ∧ t.ram = s.ram.write a.toNat v := by
  obtain ⟨-, -, hkept, -, -, hstore, -⟩ := exec_cases h
  by_cases hi : ∃ a rs, i = .store a rs
  · obtain ⟨a, rs, hi⟩ := hi
    exact (hstore a rs hi).imp_right fun hwrite => ⟨a, s.reg rs, hwrite⟩
  · exact .inl (hkept fun a rs he => hi ⟨a, rs, he⟩)

/-- From a core without an error, a meaning latches `PcWrapError` only under `PC_WRAP = fault` (R169, R300). -/
theorem exec_pcWrap_fault {i : Instr} {s t : State} (h : exec i s = .next t) (hnone : s.err = none)
    {e : ErrorRecord} (he : t.err = some e) (hkind : e.kind = .pcWrap) : s.cfg.pcWrap = .fault := by
  obtain ⟨-, -, -, -, -, -, hkept | ⟨k, ht, hcause⟩ | ⟨-, hfault, -⟩⟩ := exec_cases h
  · rw [hkept, hnone] at he
    cases he
  · rw [ht, State.enterError_err] at he
    cases he
    subst hkind
    exact hcause.1
  · exact hfault

/-- A meaning that halts a running core leaves the error latch as it was: HALT has no error (R194, R33). -/
theorem exec_err_of_halts {i : Instr} {s t : State} (h : exec i s = .next t) (hrun : s.h = false) (hhalt : t.h = true) :
    t.err = s.err := by
  obtain ⟨-, -, -, -, hh, -⟩ := exec_cases h
  have hi : i = .halt := by simpa [hhalt, hrun] using hh
  subst hi
  cases h
  exact State.setHalt_err s

/-- A rejection is a `PcWrapError` only where the bytes end at 0xFFFF, which is under `PC_WRAP = fault` (R164, R169). -/
theorem State.decodeNext_reject_pcWrap {s : State} {why : DecodeReject} {last : Nat} (h : s.decodeNext = .reject why last)
    (hkind : DecodeReject.errKind why = .pcWrap) : s.cfg.pcWrap = .fault := by
  cases why with
  | bytesExhausted => exact (State.decodeNext_reject h).1
  | unknownOpcode => cases hkind
  | operandRange => cases hkind
  | noSemantics => cases hkind

/-! ## Keeping the invariant -/

/-- What a step owes the invariant: ROM and parameters as before, RAM as before or with one byte written in bounds, and a latch that
agrees with the halt flag and with `PC_WRAP`. -/
theorem State.Inv.of_effect {s t : State} (hs : s.Inv) (hrom : t.rom = s.rom) (hcfg : t.cfg = s.cfg)
    (hram : t.ram = s.ram ∨ ∃ (a : Word) (v : Byte), a.toNat < s.cfg.ramSize ∧ t.ram = s.ram.write a.toNat v)
    (hhalt : t.h = true → t.err = none)
    (hwrap : ∀ e, t.err = some e → e.kind = .pcWrap → s.cfg.pcWrap = .fault) : t.Inv where
  config := hcfg ▸ hs.config
  romCanonical := hrom ▸ hs.romCanonical
  romBounded := hrom ▸ hs.romBounded
  ramCanonical := by
    obtain hkept | ⟨a, v, -, hwrite⟩ := hram
    · exact hkept ▸ hs.ramCanonical
    · exact hwrite ▸ Memory.wf_write hs.ramCanonical a.toNat v
  ramBounded := by
    rw [hcfg]
    obtain hkept | ⟨a, v, hlt, hwrite⟩ := hram
    · exact hkept ▸ hs.ramBounded
    · exact hwrite ▸ Memory.below_write hs.ramBounded hlt v
  haltHasNoError := hhalt
  wrapErrorNeedsFault := fun e he hkind => hcfg ▸ hwrap e he hkind

/-- Error entry of a running core keeps the invariant, if a `PcWrapError` has `PC_WRAP = fault` for its cause (R303). -/
theorem State.Inv.of_enterError {s : State} (hs : s.Inv) (hrun : s.h = false) {k : ErrKind}
    (hwrap : k = .pcWrap → s.cfg.pcWrap = .fault) (pcLeft : Word) : (s.enterError k pcLeft).Inv := by
  refine hs.of_effect rfl rfl (.inl rfl) (fun hhalt => ?_) (fun e he hkind => ?_)
  · rw [State.enterError_h, hrun] at hhalt
    cases hhalt
  · cases he
    exact hwrap hkind

/-- The meaning of every instruction keeps the invariant, from a running core without an error. -/
theorem State.Inv.of_exec {i : Instr} {s t : State} (hs : s.Inv) (hrun : s.h = false) (hnone : s.err = none)
    (h : exec i s = .next t) : t.Inv := by
  obtain ⟨hrom, hcfg, -⟩ := exec_cases h
  exact hs.of_effect hrom hcfg (exec_ram_cases h) (fun hhalt => (exec_err_of_halts h hrun hhalt).trans hnone)
    (fun _ he hkind => exec_pcWrap_fault h hnone he hkind)

/-- Settles O49: a step is the meaning of the decoded instruction or the error entry of a rejection, and both keep the invariant. -/
theorem stepKeepsTheInvariant : Obligations.StepKeepsTheInvariant := by
  intro s t hs h
  obtain ⟨hrun, hnone, ⟨i, -, hexec⟩ | ⟨why, last, hreject, rfl⟩⟩ := step_cases h
  · exact hs.of_exec hrun hnone hexec
  · exact hs.of_enterError hrun (State.decodeNext_reject_pcWrap hreject) _

end Sys2Proof.Machine
end

section
/-!
What no step reads (O45, O46). A relation between states that agrees on everything a step reads, and that every state operation keeps, is
kept by the whole step. The two statements apply this to two relations: for `Z` and `C`, and for the stack entries at indices `>= sp`.
-/

namespace Sys2Proof.Machine

/-! ## Relations that a step keeps -/

/-- Two outcomes that are both next states and related, or the same refusal. -/
inductive OutcomeRel (R : State → State → Prop) :
    Host.Outcome State Fault Refusal → Host.Outcome State Fault Refusal → Prop where
  | next {s t : State} (h : R s t) : OutcomeRel R (.next s) (.next t)
  | refused (r : Refusal) : OutcomeRel R (.refused r) (.refused r)

theorem OutcomeRel.exists_next {R : State → State → Prop} {o : Host.Outcome State Fault Refusal} {s : State}
    (h : OutcomeRel R (.next s) o) : ∃ t, o = .next t ∧ R s t := by
  cases h with
  | next h => exact ⟨_, rfl, h⟩

/-- One rule per state operation: related states agree on what a step reads outside the stack, and every operation leads related states to
related states, the stack engine with the same success and the same byte. -/
structure OperationsKeep (R : State → State → Prop) : Prop where
  observed {s t : State} : R s t →
    t.cfg = s.cfg ∧ t.rom = s.rom ∧ t.ram = s.ram ∧ t.x = s.x ∧ t.pc = s.pc ∧ t.h = s.h ∧ t.err = s.err
  setReg {s t : State} (h : R s t) (r : Reg) (v : Byte) : R (s.setReg r v) (t.setReg r v)
  setPc {s t : State} (h : R s t) (a : Word) : R (s.setPc a) (t.setPc a)
  setHalt {s t : State} (h : R s t) : R s.setHalt t.setHalt
  ramWrite {s t : State} (h : R s t) (a : Word) (v : Byte) : R (s.ramWrite a v) (t.ramWrite a v)
  setZ {s t : State} (h : R s t) (b : Bool) : R (s.setZ b) (t.setZ b)
  setC {s t : State} (h : R s t) (b : Bool) : R (s.setC b) (t.setC b)
  enterError {s t : State} (h : R s t) (k : ErrKind) (a : Word) : R (s.enterError k a) (t.enterError k a)
  stackPush {s t : State} (h : R s t) (v : Byte) : Option.Rel R (s.stackPush v) (t.stackPush v)
  stackPop {s t : State} (h : R s t) :
    Option.Rel (fun p q => q.1 = p.1 ∧ R p.2 q.2) s.stackPop t.stackPop

namespace OperationsKeep

variable {R : State → State → Prop} {s t : State}

theorem writeSum (hR : OperationsKeep R) (h : R s t) (rd : Reg) (sum : Byte × Bool) :
    R (s.writeSum rd sum) (t.writeSum rd sum) :=
  hR.setC (hR.setZ (hR.setReg h rd sum.1) (isZero sum.1)) sum.2

theorem raise_rel (hR : OperationsKeep R) (h : R s t) (k : ErrKind) (a : Word) :
    OutcomeRel R (raise k a s) (raise k a t) :=
  .next (hR.enterError h k a)

theorem pcFits_eq (hR : OperationsKeep R) (h : R s t) (n : Nat) : t.pcFits n = s.pcFits n := by
  obtain ⟨hcfg, -, -, -, hpc, -, -⟩ := hR.observed h
  exact State.pcFits_congr hcfg hpc n

theorem advance_rel (hR : OperationsKeep R) (h : R s t) (n : Nat) : OutcomeRel R (advance n s) (advance n t) := by
  obtain ⟨-, -, -, -, hpc, -, -⟩ := hR.observed h
  simp only [advance, hR.pcFits_eq h n, hpc]
  split
  · exact .next (hR.setPc h _)
  · exact hR.raise_rel h _ _

variable {o o' : Host.Outcome State Fault Refusal}

theorem afterOperands_rel (hR : OperationsKeep R) (h : R s t) (k : Nat) (hbody : OutcomeRel R o o') :
    OutcomeRel R (afterOperands k s o) (afterOperands k t o') := by
  simp only [afterOperands, hR.pcFits_eq h k]
  split
  · exact hbody
  · exact hR.raise_rel h _ _

theorem inRam_rel (hR : OperationsKeep R) (h : R s t) (a : Word) (k : Nat) (hbody : OutcomeRel R o o') :
    OutcomeRel R (inRam a k s o) (inRam a k t o') := by
  obtain ⟨hcfg, -, -, -, hpc, -, -⟩ := hR.observed h
  simp only [inRam, hcfg, hpc]
  split
  · exact hbody
  · exact hR.raise_rel h _ _

theorem jumpTarget_rel (hR : OperationsKeep R) (h : R s t) (a : Word) (k : Nat) (hbody : OutcomeRel R o o') :
    OutcomeRel R (jumpTarget a k s o) (jumpTarget a k t o') := by
  obtain ⟨hcfg, -⟩ := hR.observed h
  simp only [jumpTarget, hcfg]
  split
  · exact hR.inRam_rel h a k hbody
  · exact hbody

theorem execPush_rel (hR : OperationsKeep R) (h : R s t) (rs : Reg) :
    OutcomeRel R (execPush rs s) (execPush rs t) := by
  obtain ⟨-, -, -, hx, hpc, -, -⟩ := hR.observed h
  refine hR.afterOperands_rel h 1 ?_
  have hpush := hR.stackPush h (s.reg rs)
  simp only [State.reg_eq, hx, hpc] at hpush ⊢
  generalize s.stackPush s.x[rs.val] = p, t.stackPush s.x[rs.val] = q at hpush
  cases hpush with
  | some hst => exact hR.advance_rel hst 2
  | none => exact hR.raise_rel h _ _

theorem execPop_rel (hR : OperationsKeep R) (h : R s t) (rd : Reg) :
    OutcomeRel R (execPop rd s) (execPop rd t) := by
  obtain ⟨-, -, -, -, hpc, -, -⟩ := hR.observed h
  refine hR.afterOperands_rel h 1 ?_
  have hpop := hR.stackPop h
  rw [hpc]
  generalize s.stackPop = p, t.stackPop = q at hpop
  cases hpop with
  | some hst =>
    obtain ⟨hv, hst⟩ := hst
    simp only [hv]
    exact hR.advance_rel (hR.setReg hst rd _) 2
  | none => exact hR.raise_rel h _ _

/-- The meaning of an instruction is put together from the operations, so it keeps what they keep. -/
theorem exec_rel (hR : OperationsKeep R) (h : R s t) (i : Instr) : OutcomeRel R (exec i s) (exec i t) := by
  obtain ⟨hcfg, hrom, hram, hx, -⟩ := hR.observed h
  have hreg : ∀ r, t.reg r = s.reg r := fun r => by rw [State.reg_eq, State.reg_eq, hx]
  have hromRead := State.romRead_congr s t hrom
  have hramRead := State.ramRead_congr s t hram
  cases i with
  | nop => exact hR.advance_rel h 1
  | jump a => exact hR.afterOperands_rel h 2 (hR.jumpTarget_rel h a 2 (.next (hR.setPc h a)))
  | push rs => exact hR.execPush_rel h rs
  | pop rd => exact hR.execPop_rel h rd
  | clear rd => exact hR.afterOperands_rel h 1 (hR.advance_rel (hR.setZ (hR.setReg h rd _) _) 2)
  | inc rd =>
    simp only [exec, execInc, hreg, hcfg]
    exact hR.afterOperands_rel h 1 (hR.advance_rel (hR.setC (hR.setZ (hR.setReg h rd _) _) _) 2)
  | halt => exact .next (hR.setHalt h)
  | addReg rd rs =>
    simp only [exec, execAddReg, hreg]
    exact hR.afterOperands_rel h 2 (hR.advance_rel (hR.writeSum h rd _) 3)
  | addImm rd imm =>
    simp only [exec, execAddImm, hreg]
    exact hR.afterOperands_rel h 2 (hR.advance_rel (hR.writeSum h rd _) 3)
  | movReg rd rs =>
    simp only [exec, execMovReg, hreg]
    exact hR.afterOperands_rel h 2 (hR.advance_rel (hR.setReg h rd _) 3)
  | movImm rd imm => exact hR.afterOperands_rel h 2 (hR.advance_rel (hR.setReg h rd imm) 3)
  | lpm rd a =>
    simp only [exec, execLpm, hromRead]
    exact hR.afterOperands_rel h 3 (hR.advance_rel (hR.setReg h rd _) 4)
  | load rd a =>
    simp only [exec, execLoad, hramRead]
    exact hR.afterOperands_rel h 3 (hR.inRam_rel h a 3 (hR.advance_rel (hR.setZ (hR.setReg h rd _) _) 4))
  | store a rs =>
    simp only [exec, execStore, hreg]
    exact hR.afterOperands_rel h 2 (hR.inRam_rel h a 2
      (hR.afterOperands_rel h 3 (hR.advance_rel (hR.ramWrite h a _) 4)))

/-- So does the step: related states are both refused, or decode the same bytes. -/
theorem step_rel (hR : OperationsKeep R) (h : R s t) : OutcomeRel R (step s) (step t) := by
  obtain ⟨hcfg, hrom, -, -, hpc, hh, herr⟩ := hR.observed h
  have hstop : t.stopReason = s.stopReason := by simp only [State.stopReason, hh, herr]
  simp only [step, hstop, State.decodeNext_congr hrom hcfg hpc]
  cases s.stopReason with
  | some r => exact .refused r
  | none =>
    cases s.decodeNext with
    | instr i => exact hR.exec_rel h i
    | reject why last =>
      simp only [raiseReject, hpc]
      exact hR.raise_rel h _ _

theorem exists_step (hR : OperationsKeep R) (h : R s t) {s' : State} (hs : step s = .next s') :
    ∃ t', step t = .next t' ∧ R s' t' :=
  (hs ▸ hR.step_rel h).exists_next

end OperationsKeep

/-! ## `Z` and `C` -/

/-- No operation reads a flag: each writes other fields, or a flag to the same value on both sides (R32). -/
theorem sameButZeroCarry_operationsKeep : OperationsKeep SameButZeroCarry where
  observed := by rintro s t h; rw [h]; exact ⟨rfl, rfl, rfl, rfl, rfl, rfl, rfl⟩
  setReg := by rintro s t h r v; rw [h]; rfl
  setPc := by rintro s t h a; rw [h]; rfl
  setHalt := by rintro s t h; rw [h]; rfl
  ramWrite := by rintro s t h a v; rw [h]; rfl
  setZ := by rintro s t h b; rw [h]; rfl
  setC := by rintro s t h b; rw [h]; rfl
  enterError := by rintro s t h k a; rw [h]; rfl
  stackPush := by
    rintro s t h v; rw [h]
    unfold State.stackPush
    split
    · exact .some rfl
    · exact .none
  stackPop := by
    rintro s t h; rw [h]
    unfold State.stackPop
    split
    · exact .some ⟨rfl, rfl⟩
    · exact .none

/-- Settles O45: every state operation keeps "differ at most in `Z` and `C`", so the step does. -/
theorem zeroAndCarryAreNeverRead : Obligations.ZeroAndCarryAreNeverRead :=
  fun _ _ _ h hs => sameButZeroCarry_operationsKeep.exists_step h hs

/-! ## The stack entries at indices `>= sp` -/

/-- The entries below `sp` agree: the part of `SameButDeadStack` about contents, for stacks as data. -/
def AgreeBelow (n : Nat) (stk stk' : Vector Byte stackDepth) : Prop :=
  ∀ k (_ : k < stackDepth), k < n → stk'[k] = stk[k]

theorem sameButDeadStack_iff {s t : State} :
    SameButDeadStack s t ↔ ∃ stk', t = { s with stk := stk' } ∧ AgreeBelow s.sp.val s.stk stk' := by
  constructor
  · rintro ⟨ht, hlive⟩
    exact ⟨t.stk, ht, hlive⟩
  · rintro ⟨stk', rfl, hlive⟩
    exact ⟨rfl, hlive⟩

/-- Writing the same byte at index `n` on both sides makes one more entry agree. -/
theorem AgreeBelow.set {n : Nat} {stk stk' : Vector Byte stackDepth} (h : AgreeBelow n stk stk') (hn : n < stackDepth)
    (v : Byte) : AgreeBelow (n + 1) (stk.set n v) (stk'.set n v) := by
  intro k hk hlt
  by_cases hkn : k = n
  · subst hkn
    simp
  · have hne : n ≠ k := fun he => hkn he.symm
    simp only [Vector.getElem_set_ne _ hk hne]
    exact h k hk (by omega)

/-- A pop gives the same byte on both sides, and the entries below the new `sp` still agree (R211). -/
theorem SameButDeadStack.stackPop {s t : State} (h : SameButDeadStack s t) :
    Option.Rel (fun p q => q.1 = p.1 ∧ SameButDeadStack p.2 q.2) s.stackPop t.stackPop := by
  obtain ⟨stk', rfl, hlive⟩ := sameButDeadStack_iff.1 h
  unfold State.stackPop
  split
  case isTrue hpos =>
    exact .some ⟨hlive _ _ (Nat.sub_one_lt_of_lt hpos), rfl, fun k hk hlt => hlive k hk (Nat.lt_of_lt_of_le hlt (Nat.sub_le _ _))⟩
  case isFalse => exact .none

/-- A push writes the entry at `sp` on both sides, which is then below the new `sp` (R210). -/
theorem SameButDeadStack.stackPush {s t : State} (h : SameButDeadStack s t) (v : Byte) :
    Option.Rel SameButDeadStack (s.stackPush v) (t.stackPush v) := by
  obtain ⟨stk', rfl, hlive⟩ := sameButDeadStack_iff.1 h
  unfold State.stackPush
  split
  case isTrue hlt => exact .some ⟨rfl, hlive.set hlt v⟩
  case isFalse => exact .none

/-- Only the stack engine reads stack entries, and only below `sp` (R41). -/
theorem sameButDeadStack_operationsKeep : OperationsKeep SameButDeadStack where
  observed := by rintro s t ⟨h, -⟩; rw [h]; exact ⟨rfl, rfl, rfl, rfl, rfl, rfl, rfl⟩
  setReg := by rintro s t ⟨h, hlive⟩ r v; exact ⟨by rw [h]; rfl, hlive⟩
  setPc := by rintro s t ⟨h, hlive⟩ a; exact ⟨by rw [h]; rfl, hlive⟩
  setHalt := by rintro s t ⟨h, hlive⟩; exact ⟨by rw [h]; rfl, hlive⟩
  ramWrite := by rintro s t ⟨h, hlive⟩ a v; exact ⟨by rw [h]; rfl, hlive⟩
  setZ := by rintro s t ⟨h, hlive⟩ b; exact ⟨by rw [h]; rfl, hlive⟩
  setC := by rintro s t ⟨h, hlive⟩ b; exact ⟨by rw [h]; rfl, hlive⟩
  enterError := by rintro s t ⟨h, hlive⟩ k a; exact ⟨by rw [h]; rfl, hlive⟩
  stackPush := SameButDeadStack.stackPush
  stackPop := SameButDeadStack.stackPop

/-- Settles O46: every state operation keeps "differ at most in dead stack entries", so the step does. -/
theorem deadStackEntriesAreNeverRead : Obligations.DeadStackEntriesAreNeverRead :=
  fun _ _ _ h hs => sameButDeadStack_operationsKeep.exists_step h hs

end Sys2Proof.Machine
end

section
/-!
The frames and the tables of the instructions (O15 to O22), and what every step does to the registers, ROM, the parameters and `H` (O23, O24, O26). Said once: what every instruction writes when it completes, and that a meaning
which answers a next state is an error entry from the state as it was, or these writes followed by the move of `pc` or by `PcWrapError`.
-/

namespace Sys2Proof.Machine

/-! ## What a meaning does, in full -/

/-- The state with the writes of an instruction made and `pc` and the latch as they were; none where the stack engine fails (the tables of R22
and R31). -/
def State.writes (s : State) : Instr → Option State
  | .nop => some s
  | .jump _ => some s
  | .push rs => s.stackPush (s.reg rs)
  | .pop rd => s.stackPop.map fun r => r.2.setReg rd r.1
  | .clear rd => some ((s.setReg rd 0x00).setZ true)
  | .inc rd =>
    let sum := add8 (s.reg rd) 1
    some (((s.setReg rd sum.1).setZ (incZero s.cfg.incZeroMode rd sum.1)).setC sum.2)
  | .halt => some s.setHalt
  | .addReg rd rs => some (s.writeSum rd (add8 (s.reg rd) (s.reg rs)))
  | .addImm rd imm => some (s.writeSum rd (add8 (s.reg rd) imm))
  | .movReg rd rs => some (s.setReg rd (s.reg rs))
  | .movImm rd imm => some (s.setReg rd imm)
  | .lpm rd a => some (s.setReg rd (s.romRead a))
  | .load rd a => some ((s.setReg rd (s.ramRead a)).setZ (isZero (s.ramRead a)))
  | .store a rs => some (s.ramWrite a (s.reg rs))

/-- Where an instruction at `pc` goes when it completes (R25, R168). -/
def nextPc (i : Instr) (pc : Word) : Word :=
  match i with
  | .jump a => a
  | .halt => pc
  | i => pc + BitVec.ofNat 16 i.length

/-- The next states of a meaning. -/
inductive ExecResult (i : Instr) (s : State) : State → Prop where
  /-- an error of the operand phase or of the stack engine: nothing is written (R171, R303) -/
  | error (k : ErrKind) (a : Word) : ExecResult i s (s.enterError k a)
  /-- completion (R168) -/
  | done {u : State} (hu : s.writes i = some u) : ExecResult i s (u.setPc (nextPc i s.pc))
  /-- `PcWrapError` at the final advance, after the writes (R169) -/
  | lateWrap {u : State} (hu : s.writes i = some u) : ExecResult i s (u.enterError .pcWrap 0xFFFF)

theorem State.writes_push {s u : State} {rs : Reg} (h : s.writes (.push rs) = some u) :
    ∃ hlt : s.sp.val < stackDepth,
      u = { s with stk := s.stk.set s.sp.val (s.reg rs), sp := ⟨s.sp.val + 1, Nat.succ_lt_succ hlt⟩ } :=
  State.stackPush_cases h

theorem State.writes_pop {s u : State} {rd : Reg} (h : s.writes (.pop rd) = some u) :
    ∃ (v : Byte) (sp' : Fin (stackDepth + 1)), sp'.val + 1 = s.sp.val ∧
      u = { s.setReg rd v with sp := sp' } := by
  obtain ⟨⟨v, r⟩, hpop, rfl⟩ := Option.map_eq_some_iff.1 h
  obtain ⟨hpos, -, rfl⟩ := State.stackPop_cases hpop
  exact ⟨v, _, Nat.sub_add_cancel hpos, rfl⟩

/-- The writes leave what an error record is made of, and the latch itself, alone. -/
theorem State.writes_kept {i : Instr} {s u : State} (h : s.writes i = some u) :
    u.pc = s.pc ∧ u.rom = s.rom ∧ u.err = s.err := by
  cases i
  case push rs => obtain ⟨_, rfl⟩ := State.writes_push h; exact ⟨rfl, rfl, rfl⟩
  case pop rd => obtain ⟨_, _, -, rfl⟩ := State.writes_pop h; exact ⟨rfl, rfl, rfl⟩
  all_goals cases h; exact ⟨rfl, rfl, rfl⟩

namespace ExecResult

variable {i : Instr} {s t u : State} {body : Host.Outcome State Fault Refusal}

theorem of_advance {n : Nat} (hu : s.writes i = some u) (hn : nextPc i s.pc = s.pc + BitVec.ofNat 16 n)
    (h : advance n u = .next t) : ExecResult i s t := by
  obtain ⟨hpc, -⟩ := State.writes_kept hu
  obtain ⟨-, rfl⟩ | ⟨-, rfl⟩ := advance_cases h
  · rw [hpc, ← hn]
    exact .done hu
  · exact .lateWrap hu

theorem of_afterOperands {k : Nat} (hbody : body = .next t → ExecResult i s t)
    (h : afterOperands k s body = .next t) : ExecResult i s t := by
  obtain ⟨-, hb⟩ | ⟨-, rfl⟩ := afterOperands_cases h
  · exact hbody hb
  · exact .error _ _

theorem of_inRam {a : Word} {k : Nat} (hbody : body = .next t → ExecResult i s t)
    (h : inRam a k s body = .next t) : ExecResult i s t := by
  obtain ⟨-, hb⟩ | ⟨-, rfl⟩ := inRam_cases h
  · exact hbody hb
  · exact .error _ _

theorem of_jumpTarget {a : Word} {k : Nat} (hbody : body = .next t → ExecResult i s t)
    (h : jumpTarget a k s body = .next t) : ExecResult i s t := by
  obtain ⟨-, hb⟩ | ⟨-, -, rfl⟩ := jumpTarget_cases h
  · exact hbody hb
  · exact .error _ _

end ExecResult

theorem execPush_result {rs : Reg} {s t : State} : execPush rs s = .next t → ExecResult (.push rs) s t := by
  refine .of_afterOperands fun h => ?_
  cases hp : s.stackPush (s.reg rs) with
  | some u => rw [hp] at h; exact .of_advance hp rfl h
  | none => rw [hp] at h; cases h; exact .error _ _

theorem execPop_result {rd : Reg} {s t : State} : execPop rd s = .next t → ExecResult (.pop rd) s t := by
  refine .of_afterOperands fun h => ?_
  cases hp : s.stackPop with
  | some r =>
    rw [hp] at h
    exact .of_advance (Option.map_eq_some_iff.2 ⟨r, hp, rfl⟩) rfl h
  | none => rw [hp] at h; cases h; exact .error _ _

/-- Every next state of a meaning. -/
theorem exec_result {i : Instr} {s t : State} (h : exec i s = .next t) : ExecResult i s t := by
  revert h
  cases i with
  | nop => exact .of_advance rfl rfl
  | jump a => exact .of_afterOperands (.of_jumpTarget fun h => by cases h; exact .done rfl)
  | push rs => exact execPush_result
  | pop rd => exact execPop_result
  | halt => rintro ⟨⟩; exact .done (u := s.setHalt) rfl
  | load rd a => exact .of_afterOperands (.of_inRam (.of_advance rfl rfl))
  | store a rs => exact .of_afterOperands (.of_inRam (.of_afterOperands (.of_advance rfl rfl)))
  | clear rd => exact .of_afterOperands (.of_advance rfl rfl)
  | inc rd => exact .of_afterOperands (.of_advance rfl rfl)
  | addReg rd rs => exact .of_afterOperands (.of_advance rfl rfl)
  | addImm rd imm => exact .of_afterOperands (.of_advance rfl rfl)
  | movReg rd rs => exact .of_afterOperands (.of_advance rfl rfl)
  | movImm rd imm => exact .of_afterOperands (.of_advance rfl rfl)
  | lpm rd a => exact .of_afterOperands (.of_advance rfl rfl)

/-! ## The three readings of it that the statements use -/

/-- The latch stays, or takes an error of this very instruction (R39, R303). -/
theorem exec_latch {i : Instr} {s t : State} (h : exec i s = .next t) :
    t.err = s.err ∨ ∃ k, t.err = some ⟨k, s.pc, s.romRead s.pc⟩ := by
  cases exec_result h with
  | error k a => exact .inr ⟨k, rfl⟩
  | done hu =>
    obtain ⟨-, -, herr⟩ := State.writes_kept hu
    exact .inl herr
  | lateWrap hu =>
    obtain ⟨hpc, hrom, -⟩ := State.writes_kept hu
    exact .inr ⟨.pcWrap, by rw [State.enterError_err, hpc, State.romRead_congr s _ hrom]⟩

/-- But for `pc` and the latch, an instruction makes its writes or none, and none only with an error (R171). -/
theorem exec_writes {i : Instr} {s t : State} (h : exec i s = .next t) :
    ∃ (u : State) (a : Word) (e : Option ErrorRecord),
      t = { u with pc := a, err := e } ∧ (u = s ∧ e ≠ none ∨ s.writes i = some u) := by
  cases exec_result h with
  | error k a => exact ⟨s, a, _, rfl, .inl ⟨rfl, nofun⟩⟩
  | @done u hu => exact ⟨u, _, u.err, rfl, .inr hu⟩
  | @lateWrap u hu => exact ⟨u, 0xFFFF, _, rfl, .inr hu⟩

/-- Without an error an instruction makes its writes and moves `pc` to where it goes (R168). -/
theorem exec_completes {i : Instr} {s t : State} (h : exec i s = .next t) (hnone : t.err = none) :
    ∃ u, s.writes i = some u ∧ t = u.setPc (nextPc i s.pc) := by
  cases exec_result h with
  | error k a => cases hnone
  | done hu => exact ⟨_, hu, rfl⟩
  | lateWrap hu => cases hnone

/-! ## Frames -/

/-- The frame of an instruction that writes one register and perhaps `Z` and `C`; a flag written with what it held is a flag kept. -/
theorem exec_register_frame {i : Instr} {rd : Reg} {v : Byte} {z c : Bool} {s t : State}
    (hi : s.writes i = some { s.setReg rd v with z := z, c := c }) (h : exec i s = .next t) :
    (∀ r : Reg, r ≠ rd → t.x[r.val] = s.x[r.val]) ∧
    (∀ a : Word, t.ramRead a = s.ramRead a) ∧ (∀ a : Word, t.romRead a = s.romRead a) ∧
    (t.z = s.z ∨ t.z = z) ∧ (t.c = s.c ∨ t.c = c) ∧ t.h = s.h ∧ t.sp = s.sp ∧ t.stk = s.stk ∧ t.cfg = s.cfg ∧
    (t.err = s.err ∨ ∃ k, t.err = some ⟨k, s.pc, s.romRead s.pc⟩) := by
  have hlatch := exec_latch h
  obtain ⟨u, a, e, rfl, ⟨rfl, -⟩ | hu⟩ := exec_writes h
  · exact ⟨fun _ _ => rfl, fun _ => rfl, fun _ => rfl, .inl rfl, .inl rfl, rfl, rfl, rfl, rfl, hlatch⟩
  · cases hi.symm.trans hu
    exact ⟨fun r hr => State.setReg_x_other s rd r v hr, fun _ => rfl, fun _ => rfl, .inr rfl, .inr rfl, rfl, rfl, rfl, rfl, hlatch⟩

/-- Settles O15: MOV and LPM write `rd` only. -/
theorem moveAndLpmFrame : Obligations.MoveAndLpmFrame := by
  intro i rd s t hi h
  have hw : ∃ v, s.writes i = some { s.setReg rd v with z := s.z, c := s.c } := by
    obtain ⟨rs, rfl⟩ | ⟨imm, rfl⟩ | ⟨a, rfl⟩ := hi
    · exact ⟨s.reg rs, rfl⟩
    · exact ⟨imm, rfl⟩
    · exact ⟨s.romRead a, rfl⟩
  obtain ⟨v, hw⟩ := hw
  obtain ⟨hx, hram, hrom, hz, hc, hrest⟩ := exec_register_frame hw h
  exact ⟨hx, hram, hrom, hz.elim id id, hc.elim id id, hrest⟩

/-- Settles O16: CLEAR and LOAD write `rd` and `Z` only. -/
theorem clearAndLoadFrame : Obligations.ClearAndLoadFrame := by
  intro i rd s t hi h
  have hw : ∃ v z, s.writes i = some { s.setReg rd v with z := z, c := s.c } := by
    obtain rfl | ⟨a, rfl⟩ := hi
    · exact ⟨0x00, true, rfl⟩
    · exact ⟨s.ramRead a, isZero (s.ramRead a), rfl⟩
  obtain ⟨v, z, hw⟩ := hw
  obtain ⟨hx, hram, hrom, -, hc, hrest⟩ := exec_register_frame hw h
  exact ⟨hx, hram, hrom, hc.elim id id, hrest⟩

/-- Settles O17: INC and ADD write `rd`, `Z` and `C` only. -/
theorem incAndAddFrame : Obligations.IncAndAddFrame := by
  intro i rd s t hi h
  have hw : ∃ v z c, s.writes i = some { s.setReg rd v with z := z, c := c } := by
    obtain rfl | ⟨rs, rfl⟩ | ⟨imm, rfl⟩ := hi
    · exact ⟨_, _, _, rfl⟩
    · exact ⟨_, _, _, rfl⟩
    · exact ⟨_, _, _, rfl⟩
  obtain ⟨v, z, c, hw⟩ := hw
  obtain ⟨hx, hram, hrom, -, -, hrest⟩ := exec_register_frame hw h
  exact ⟨hx, hram, hrom, hrest⟩

/-- Settles O18: PUSH writes the entry at the old `sp` and POP writes `rd`, each with `sp`; where the stack engine fails, neither is written. -/
theorem stackFrame : Obligations.StackFrame := by
  refine fun r s t => ⟨fun h => ?_, fun h => ?_⟩
  case refine_1 =>
    have hlatch := exec_latch h
    obtain ⟨u, a, e, rfl, ⟨rfl, he⟩ | hu⟩ := exec_writes h
    · exact ⟨rfl, fun _ => rfl, fun _ => rfl, rfl, rfl, rfl, rfl, fun _ _ _ => rfl, .inr ⟨rfl, rfl, he⟩, hlatch⟩
    · obtain ⟨hlt, rfl⟩ := State.writes_push hu
      exact ⟨rfl, fun _ => rfl, fun _ => rfl, rfl, rfl, rfl, rfl,
        fun k hk hne => Vector.getElem_set_ne hlt hk hne.symm, .inl rfl, hlatch⟩
  case refine_2 =>
    have hlatch := exec_latch h
    obtain ⟨u, a, e, rfl, ⟨rfl, he⟩ | hu⟩ := exec_writes h
    · exact ⟨fun _ _ => rfl, fun _ => rfl, fun _ => rfl, rfl, rfl, rfl, rfl, rfl, .inr ⟨rfl, rfl, he⟩, hlatch⟩
    · obtain ⟨v, sp', hsp, rfl⟩ := State.writes_pop hu
      exact ⟨fun q hq => State.setReg_x_other s r q v hq, fun _ => rfl, fun _ => rfl, rfl, rfl, rfl, rfl, rfl, .inl hsp, hlatch⟩

/-- Settles O19: STORE writes the RAM byte at its address operand only (R67). -/
theorem storeFrame : Obligations.StoreFrame := by
  intro a rs s t h
  have hlatch := exec_latch h
  obtain ⟨u, pc', e, rfl, ⟨rfl, -⟩ | hu⟩ := exec_writes h
  · exact ⟨fun _ _ => rfl, fun _ => rfl, rfl, rfl, rfl, rfl, rfl, rfl, rfl, hlatch⟩
  · cases hu
    have hother : ∀ b : Word, b ≠ a → (s.ramWrite a (s.reg rs)).ramRead b = s.ramRead b := fun b hb =>
      Memory.read_write_other s.ram (fun he => hb (BitVec.eq_of_toNat_eq he)) _
    exact ⟨hother, fun _ => rfl, rfl, rfl, rfl, rfl, rfl, rfl, rfl, hlatch⟩

/-- Settles O20: NOP and JUMP write nothing but `pc`, and HALT writes `H` only. -/
theorem controlFrame : Obligations.ControlFrame := by
  intro i s t hi h
  have hlatch := exec_latch h
  have hw : ∃ b, s.writes i = some { s with h := b } ∧ (i ≠ .halt → b = s.h) := by
    obtain rfl | ⟨a, rfl⟩ | rfl := hi
    · exact ⟨s.h, rfl, fun _ => rfl⟩
    · exact ⟨s.h, rfl, fun _ => rfl⟩
    · exact ⟨true, rfl, fun hne => absurd rfl hne⟩
  obtain ⟨b, hw, hb⟩ := hw
  obtain ⟨u, a, e, rfl, ⟨rfl, -⟩ | hu⟩ := exec_writes h
  · exact ⟨rfl, fun _ => rfl, fun _ => rfl, rfl, rfl, fun _ => rfl, rfl, rfl, rfl, hlatch⟩
  · cases hw.symm.trans hu
    exact ⟨rfl, fun _ => rfl, fun _ => rfl, rfl, rfl, hb, rfl, rfl, rfl, hlatch⟩

/-! ## Tables over the whole instruction set -/

/-- Settles O21: a completed instruction leaves `pc` at `nextPc`, whose lengths are those of R25. -/
theorem programCounterTable : Obligations.ProgramCounterTable := by
  intro i s t h hnone
  obtain ⟨u, -, rfl⟩ := exec_completes h hnone
  rw [State.setPc_pc]
  cases i <;> rfl

/-- Settles O22: a completed instruction leaves the flags as its writes do (R31); `Z` and `C` of a sum are those of `add8` (R230). -/
theorem flagTable : Obligations.FlagTable := by
  intro i s t h hnone hmode
  obtain ⟨u, hu, rfl⟩ := exec_completes h hnone
  cases i with
  | push rs => obtain ⟨_, rfl⟩ := State.writes_push hu; exact ⟨rfl, rfl, rfl⟩
  | pop rd => obtain ⟨_, _, -, rfl⟩ := State.writes_pop hu; exact ⟨rfl, rfl, rfl⟩
  | inc rd =>
    cases hu
    have hz : incZero s.cfg.incZeroMode rd (add8 (s.reg rd) 1).1 = decide (rd.val = 0) := by
      rw [hmode]
      exact decide_eq_decide.2 Fin.ext_iff
    exact ⟨hz, rfl, rfl⟩
  | addReg rd rs =>
    cases hu
    exact ⟨by simp [add8_eq, isZero, State.reg_eq], rfl, rfl⟩
  | addImm rd imm =>
    cases hu
    exact ⟨by simp [add8_eq, isZero, State.reg_eq], rfl, rfl⟩
  | _ => cases hu; exact ⟨rfl, rfl, rfl⟩

/-! ## What every step does -/

/-- Settles O23: a meaning changes the destination only, and the error entry of a rejection no register. -/
theorem onlyTheDestinationRegisterChanges : Obligations.OnlyTheDestinationRegisterChanges := by
  intro s t h
  obtain ⟨-, -, ⟨i, hd, hexec⟩ | ⟨why, last, hd, rfl⟩⟩ := step_cases h
  · obtain ⟨-, -, -, hx, -⟩ := exec_cases hexec
    rw [hd]
    exact hx
  · rw [hd]
    exact State.enterError_x s _ _

/-- Settles O24: neither a meaning nor an error entry writes ROM or a parameter. -/
theorem romAndConfigurationNeverChange : Obligations.RomAndConfigurationNeverChange := by
  intro s t h
  obtain ⟨-, -, ⟨i, -, hexec⟩ | ⟨why, last, -, rfl⟩⟩ := step_cases h
  · obtain ⟨hrom, hcfg, -⟩ := exec_cases hexec
    exact ⟨hrom, hcfg⟩
  · exact ⟨rfl, rfl⟩

/-- A running core steps, whatever it decodes (R160, R161). -/
theorem step_next_of_running {s : State} (hh : s.h = false) (he : s.err = none) : ∃ t, step s = .next t := by
  rw [step_of_running hh he]
  cases s.decodeNext with
  | instr i => exact exec_next i s
  | reject why last => exact ⟨_, rfl⟩

/-- A step is refused for the reason the core is stopped, and for no other. -/
theorem step_refused_iff {s : State} {r : Refusal} : step s = .refused r ↔ s.stopReason = some r := by
  cases hs : s.stopReason with
  | some q => simp [step, hs]
  | none =>
    obtain ⟨hh, he⟩ := State.stopReason_eq_none.1 hs
    obtain ⟨t, ht⟩ := step_next_of_running hh he
    simp [ht]

theorem State.stopReason_eq_halted {s : State} : s.stopReason = some .halted ↔ s.h = true := by
  unfold State.stopReason
  cases s.h <;> cases s.err <;> simp

/-- After a step `H = 1` exactly if the step decoded HALT: the core was running, so `H` was 0 (R33). -/
theorem step_h_iff {s t : State} (h : step s = .next t) : t.h = true ↔ s.decodeNext = .instr .halt := by
  obtain ⟨hrun, -, ⟨i, hd, hexec⟩ | ⟨why, last, hd, rfl⟩⟩ := step_cases h
  · obtain ⟨-, -, -, -, hh, -⟩ := exec_cases hexec
    rw [hd, hh, hrun]
    simp
  · rw [hd, State.enterError_h, hrun]
    simp

/-- Settles O26: the flag is the reason of the refusal, and among the meanings only HALT's writes it. -/
theorem onlyHaltSetsTheHaltFlag : Obligations.OnlyHaltSetsTheHaltFlag := by
  refine ⟨fun s => State.stopReason_eq_halted.symm.trans step_refused_iff.symm, fun s t => step_h_iff, fun i s t h hh => ?_, fun s => rfl⟩
  obtain ⟨-, -, -, -, hkept, -⟩ := exec_cases h
  rw [hkept, hh, Bool.true_or]

end Sys2Proof.Machine
end

section
/-!
Reset, boot and the end of a run (O48, O50, O52): what a constructed core owes the invariant, what `boot` asks of its inputs, and that a run which
has ended goes no further.
-/

namespace Sys2Proof.Machine

/-! ## Construction -/

/-- A freshly constructed core runs without an error, so legal inputs are all that the invariant asks of it (R341, R344). -/
theorem construct_inv {p : Config} {rom ram : Memory} (hp : p.wf) (hrom : rom.wf) (hromBelow : Memory.below romSize rom)
    (hram : ram.wf) (hramBelow : Memory.below p.ramSize ram) : (construct p rom ram).Inv where
  config := hp
  romCanonical := hrom
  romBounded := hromBelow
  ramCanonical := hram
  ramBounded := hramBelow
  haltHasNoError := fun _ => rfl
  wrapErrorNeedsFault := nofun

/-- Settles O48: `State.reset` is the core constructed with the reference configuration and empty memories. -/
theorem resetSatisfiesTheInvariant : Obligations.ResetSatisfiesTheInvariant :=
  construct_inv (p := referenceConfig) (by decide) Memory.wf_nil (Memory.below_nil _) Memory.wf_nil (Memory.below_nil _)

/-- Booting succeeds exactly on a legal configuration with canonical buffers within their sizes, and then constructs the core. -/
theorem boot_eq_ok_iff {p : Config} {rom ram : Memory} {s : State} :
    boot p rom ram = .ok s ↔
      (p.wf ∧ rom.wf ∧ Memory.below romSize rom ∧ ram.wf ∧ Memory.below p.ramSize ram) ∧ s = construct p rom ram := by
  unfold boot
  split
  case isTrue htable => exact ⟨nofun, fun ⟨⟨hp, _⟩, _⟩ => absurd hp.1 htable⟩
  case isFalse htable =>
    split
    case isTrue hsize => exact ⟨nofun, fun ⟨⟨hp, _⟩, _⟩ => absurd hp.2 hsize⟩
    case isFalse hsize =>
      split
      case isTrue hbuffers => exact ⟨nofun, fun ⟨⟨_, hb⟩, _⟩ => absurd hb hbuffers⟩
      case isFalse hbuffers =>
        rw [not_not] at htable hsize hbuffers
        constructor
        · rintro ⟨⟩
          exact ⟨⟨⟨htable, hsize⟩, hbuffers⟩, rfl⟩
        · rintro ⟨-, rfl⟩
          rfl

/-- Settles O50: an ambiguous table fails the first check of `boot`, and what passes them all is a constructed core. -/
theorem bootGivesASoundRunningCore : Obligations.BootGivesASoundRunningCore := by
  refine ⟨fun p rom ram htable => if_pos htable, fun p rom ram hp hrom hromBelow hram hramBelow => ?_, fun p rom ram s h => ?_⟩
  · exact ⟨_, boot_eq_ok_iff.2 ⟨⟨hp, hrom, hromBelow, hram, hramBelow⟩, rfl⟩⟩
  · obtain ⟨⟨hp, hrom, hromBelow, hram, hramBelow⟩, rfl⟩ := boot_eq_ok_iff.1 h
    exact ⟨construct_inv hp hrom hromBelow hram hramBelow, ⟨rfl, rfl⟩, rfl, rfl, rfl, rfl, rfl⟩

/-! ## The end of a run -/

/-- No step follows an end state (R160, R304). -/
theorem State.Ended.step_ne_next {t : State} (ht : t.Ended) (v : State) : step t ≠ .next v := by
  intro h
  obtain ⟨hrun, hnone, -⟩ := step_cases h
  obtain ⟨hhalt, -⟩ | herr := ht
  · rw [hrun] at hhalt
    cases hhalt
  · exact herr hnone

theorem run_succ_eq_next {k : Nat} {s t : State} :
    Host.Core.run core (k + 1) s = .next t ↔ ∃ s', step s = .next s' ∧ Host.Core.run core k s' = .next t := by
  constructor
  · intro h
    simp only [Host.Core.run] at h
    split at h
    case h_1 s' hs => exact ⟨s', hs, h⟩
    case h_2 => cases h
    case h_3 => cases h
  · rintro ⟨s', hs, h⟩
    have hcore : core.step s = .next s' := hs
    simp only [Host.Core.run, hcore]
    exact h

/-- A run that has ended after `k` steps answers no state after more. -/
theorem run_length_le_of_ended {k j : Nat} {s t u : State} (ht : t.Ended) (hk : Host.Core.run core k s = .next t)
    (hj : Host.Core.run core j s = .next u) : j ≤ k := by
  induction k generalizing s j with
  | zero =>
    cases hk
    cases j with
    | zero => exact Nat.le_refl 0
    | succ j =>
      obtain ⟨s', hs, -⟩ := run_succ_eq_next.1 hj
      exact absurd hs (ht.step_ne_next s')
  | succ k ih =>
    cases j with
    | zero => exact Nat.zero_le _
    | succ j =>
      obtain ⟨s', hs, hk⟩ := run_succ_eq_next.1 hk
      obtain ⟨s'', hs', hj⟩ := run_succ_eq_next.1 hj
      cases hs.symm.trans hs'
      exact Nat.succ_le_succ (ih hk hj)

/-- Settles O52: neither of two runs to an end state is longer than the other, and the step is a function. -/
theorem theEndStateIsUnique : Obligations.TheEndStateIsUnique := by
  rintro s t u ⟨k, hk, ht⟩ ⟨j, hj, hu⟩
  have hkj : k = j := Nat.le_antisymm (run_length_le_of_ended hu hj hk) (run_length_le_of_ended ht hk hj)
  subst hkj
  cases hk.symm.trans hj
  exact ⟨rfl, ht.step_ne_next⟩

end Sys2Proof.Machine
end

section
/-!
Memory (O25, O38, O40, O41): an address operand is a little-endian pair, a LOAD or STORE out of bounds accesses nothing, and one in bounds reads
or writes its byte.
-/

namespace Sys2Proof

/-- An address operand that is in bound is consumed as two slots, low byte first, and the operand phase goes on behind them (R104, R166). -/
theorem loadOperands_address_cons {bound : Option Nat} {lo hi : Byte} (hin : addressInBound bound (addressOfBytes lo hi) = true)
    {sig : Signature} {bytes : List Byte} {last : Nat} {ops : List Operand}
    (h : loadOperands bound sig bytes (last + 2) = .ok ops) :
    loadOperands bound (.address :: sig) (lo :: hi :: bytes) last = .ok (.address (addressOfBytes lo hi) :: ops) := by
  simp only [loadOperands, hin, if_true, h, Except.map]

/-- Settles O38: the pair is joined by `addressOfBytes`, which the two bytes of an address invert. -/
theorem addressOperandIsLittleEndian : Obligations.AddressOperandIsLittleEndian := by
  refine ⟨fun lo hi => ?_, fun a => ?_⟩
  · exact ⟨addressOfBytes lo hi, addressOfBytes_toNat lo hi, fun _ _ _ h => loadOperands_address_cons rfl h⟩
  · exact ⟨loByte a, hiByte a, rfl, by rw [← addressOfBytes_toNat, addressOfBytes_bytes]⟩

end Sys2Proof

namespace Sys2Proof.Machine

/-! ## Accesses at or above `RAM_SIZE` -/

/-- LOAD checks its address at the fourth byte, before the access (R63, R271). -/
theorem exec_load_of_le {s : State} {a : Word} (hfits : s.pcFits 3 = true) (ha : s.cfg.ramSize ≤ a.toNat) (rd : Reg) :
    exec (.load rd a) s = .next (s.enterError .operandRange (s.pc + 3)) :=
  (afterOperands_of_fits hfits _).trans (inRam_of_le ha 3 _)

/-- STORE checks its address at the third byte, before the register slot is read and before the access (R63, R272). -/
theorem exec_store_of_le {s : State} {a : Word} (hfits : s.pcFits 2 = true) (ha : s.cfg.ramSize ≤ a.toNat) (rs : Reg) :
    exec (.store a rs) s = .next (s.enterError .operandRange (s.pc + 2)) :=
  (afterOperands_of_fits hfits _).trans (inRam_of_le ha 2 _)

/-- Settles O40: the bound check of each fails before anything is written, and error entry keeps every other field. -/
theorem ramAccessIsBounded : Obligations.RamAccessIsBounded := by
  intro r a s hfits ha
  exact ⟨exec_load_of_le hfits ha r, exec_store_of_le (State.pcFits_mono hfits (by decide)) ha r⟩

/-! ## Accesses below `RAM_SIZE` -/

/-- A LOAD in bounds completes with the RAM byte in `rd` and `Z` from it (R271). -/
theorem exec_load_of_lt {s : State} {a : Word} (hfits : s.pcFits 4 = true) (ha : a.toNat < s.cfg.ramSize) (rd : Reg) :
    exec (.load rd a) s =
      .next (((s.setReg rd (s.ramRead a)).setZ (isZero (s.ramRead a))).setPc (s.pc + 4)) :=
  (afterOperands_of_fits (State.pcFits_mono hfits (by decide)) _).trans <|
    (inRam_of_lt ha 3 _).trans (advance_of_fits hfits)

/-- A STORE in bounds completes with the register's byte at its address (R272). -/
theorem exec_store_of_lt {s : State} {a : Word} (hfits : s.pcFits 4 = true) (ha : a.toNat < s.cfg.ramSize) (rs : Reg) :
    exec (.store a rs) s = .next ((s.ramWrite a (s.reg rs)).setPc (s.pc + 4)) :=
  (afterOperands_of_fits (State.pcFits_mono hfits (by decide)) _).trans <|
    (inRam_of_lt ha 2 _).trans <|
      (afterOperands_of_fits (State.pcFits_mono hfits (by decide)) _).trans (advance_of_fits hfits)

/-- RAM read after write: the written address reads the written byte, every other as before (R66, R67, R75). -/
theorem State.ramRead_ramWrite {s : State} (hwf : s.ram.wf) (a b : Word) (v : Byte) :
    (s.ramWrite a v).ramRead b = if b = a then v else s.ramRead b := by
  split
  case isTrue he =>
    subst he
    exact Memory.read_write_same hwf b.toNat v
  case isFalse hne => exact Memory.read_write_other s.ram (fun he => hne (BitVec.eq_of_toNat_eq he)) v

/-- Settles O41: both accesses are in bounds, so they complete, and the LOAD reads RAM as the STORE left it. -/
theorem loadReturnsTheLastStore : Obligations.LoadReturnsTheLastStore := by
  intro s a b rs rd hwf hwrap ha hb
  have hstore := exec_store_of_lt (s.pcFits_of_wrap 4 hwrap) ha rs
  have hload := exec_load_of_lt (s := (s.ramWrite a (s.reg rs)).setPc (s.pc + 4)) (State.pcFits_of_wrap _ 4 hwrap) hb rd
  exact ⟨_, _, hstore, hload, rfl, (State.setReg_x_same _ rd _).trans (State.ramRead_ramWrite hwf a b _)⟩

/-! ## Who writes RAM -/

/-- A meaning that changes a RAM byte is a STORE, since the others keep all of RAM, and to that address, since a STORE keeps the rest. -/
theorem eq_store_of_exec_ramRead_ne {i : Instr} {s t : State} {a : Word} (h : exec i s = .next t) (hne : t.ramRead a ≠ s.ramRead a) :
    ∃ rs, i = .store a rs := by
  obtain ⟨-, -, hkept, -⟩ := exec_cases h
  by_cases hstore : ∃ b rs, i = .store b rs
  · obtain ⟨b, rs, rfl⟩ := hstore
    obtain ⟨hother, -⟩ := storeFrame b rs s t h
    have hab : a = b := by_contra fun hab => hne (hother a hab)
    exact ⟨rs, by rw [hab]⟩
  · have hram : t.ram = s.ram := hkept fun b rs he => hstore ⟨b, rs, he⟩
    exact absurd (State.ramRead_congr s t hram a) hne

/-- Settles O25: the error entry of a rejection keeps RAM, so the step was the meaning of a STORE. -/
theorem onlyStoreWritesRam : Obligations.OnlyStoreWritesRam := by
  intro s t a h hne
  obtain ⟨-, -, ⟨i, hdecode, hexec⟩ | ⟨why, last, -, rfl⟩⟩ := step_cases h
  · obtain ⟨rs, rfl⟩ := eq_store_of_exec_ramRead_ne hexec hne
    exact ⟨rs, hdecode⟩
  · exact absurd rfl hne

end Sys2Proof.Machine
end

section
/-!
The encoding (O34 to O37, O39): what the decoder answers, said once for each of its branches, and that the operand phase reads the bytes of
operands back in any signature that begins with their types.
-/

namespace Sys2Proof

/-! ## The branches of the decoder -/

/-- The decoder answers an instruction exactly where the entry has its mnemonic and the operand phase gives its operands (R114, R167). -/
theorem decode_eq_instr_iff {p : Config} {op : Byte} {bytes : List Byte} {i : Instr} :
    decode p (op :: bytes) = .instr i ↔
      ∃ row, lookupOpcode p.table op = some row ∧ row.mnemonic = i.mnemonic ∧
        loadOperands (addressBound p row.mnemonic row.signature) row.signature bytes 0 = .ok i.operands := by
  simp only [decode]
  cases lookupOpcode p.table op with
  | none => simp
  | some row =>
    simp only [Option.some.injEq, exists_eq_left']
    cases loadOperands (addressBound p row.mnemonic row.signature) row.signature bytes 0 with
    | error e => simp
    | ok ops =>
      have hform := @instrOf_eq_some row.mnemonic ops i
      cases hi : instrOf row.mnemonic ops with
      | none => simpa [hi, eq_comm] using hform
      | some j => simpa [hi, eq_comm] using hform

/-- An opcode byte without an entry is rejected at once (R114, R163). -/
theorem decode_of_lookup_none {p : Config} {op : Byte} (h : lookupOpcode p.table op = none) (bytes : List Byte) :
    decode p (op :: bytes) = .reject .unknownOpcode 0 := by
  simp only [decode, h]

/-- A failure of the operand phase is the decoder's (R164 to R166). -/
theorem decode_of_loadOperands_error {p : Config} {op : Byte} {row : TableRow} {bytes : List Byte} {why : DecodeReject} {last : Nat}
    (hrow : lookupOpcode p.table op = some row)
    (h : loadOperands (addressBound p row.mnemonic row.signature) row.signature bytes 0 = .error (why, last)) :
    decode p (op :: bytes) = .reject why last := by
  simp only [decode, hrow, h]

/-- An entry that is no defined form is rejected once its operands are loaded (R114, R167). -/
theorem decode_of_no_form {p : Config} {op : Byte} {row : TableRow} {bytes : List Byte} {ops : List Operand}
    (hrow : lookupOpcode p.table op = some row)
    (h : loadOperands (addressBound p row.mnemonic row.signature) row.signature bytes 0 = .ok ops)
    (hform : ∀ i : Instr, ¬ (i.mnemonic = row.mnemonic ∧ i.signature = row.signature)) :
    decode p (op :: bytes) = .reject .noSemantics (signatureSlots row.signature) := by
  obtain ⟨htypes, -, -⟩ := loadOperands_ok h
  have hnone : instrOf row.mnemonic ops = none := instrOf_eq_none.2 (by rwa [htypes])
  simp only [decode, hrow, h, hnone]

/-! ## Decode and encode are inverse -/

/-- Settles O34: the operand phase reads the bytes of in-bound operands back, and well-formed says that they are in bound. -/
theorem decodeOfEncode : Obligations.DecodeOfEncode := by
  intro p op row i rest hrow hm hs hwf
  refine decode_eq_instr_iff.2 ⟨row, hrow, hm, ?_⟩
  rw [hm, hs]
  exact loadOperands_of_bytes _ i.operands rest 0 ((wf_iff_inBound p i).1 hwf)

/-- Settles O35: a successful operand phase has consumed exactly the bytes of the operands it gives, all in bound. -/
theorem encodeOfDecode : Obligations.EncodeOfDecode := by
  intro p bytes i h
  cases bytes with
  | nil => cases h
  | cons op bytes =>
    obtain ⟨row, hrow, hm, hload⟩ := decode_eq_instr_iff.1 h
    obtain ⟨htypes, hbound, rest, hbytes⟩ := loadOperands_ok hload
    have hs : row.signature = i.signature := htypes.symm
    rw [hm, hs] at hbound
    exact ⟨(wf_iff_inBound p i).2 hbound, op, row, rest, by rw [hbytes]; rfl, hrow, hm, hs⟩

/-! ## Lengths -/

/-- A signature has one slot for each register and each value and two for each address (R105, R163). -/
theorem signatureSlots_eq_count (sig : Signature) :
    signatureSlots sig = sig.count .register + sig.count .value + 2 * sig.count .address := by
  induction sig with
  | nil => rfl
  | cons t sig ih =>
    rw [signatureSlots_cons, ih]
    cases t <;> simp [OperandType.slots] <;> omega

/-- An entry's length is its slots and the opcode byte (R105). -/
theorem entryLength_of_lookup {p : Config} {op : Byte} {row : TableRow} (h : lookupOpcode p.table op = some row) :
    entryLength p op = 1 + signatureSlots row.signature := by
  simp only [entryLength, h]

/-- Settles O36: the entry and the encoding are both as long as the signature's slots and one byte more. -/
theorem instructionLength : Obligations.InstructionLength := by
  refine ⟨fun p op row hrow => ?_, fun op i => ?_⟩
  · rw [entryLength_of_lookup hrow, signatureSlots_eq_count]
    omega
  · rw [encodeWith_length, Instr.length, signatureSlots_eq_count]
    omega

/-! ## Operands before other slots -/

/-- The operand phase reads the bytes of one in-bound operand back and goes on behind them (R164 to R166). -/
theorem loadOperands_cons_bytes {bound : Option Nat} {op : Operand} (h : op.inBound bound = true) (sig : Signature) (bytes : List Byte)
    (last : Nat) :
    loadOperands bound (op.type :: sig) (op.bytes ++ bytes) last
      = (loadOperands bound sig bytes (last + op.type.slots)).map (op :: ·) := by
  cases op with
  | register r =>
    simp only [Operand.type, Operand.bytes, OperandType.slots, List.cons_append, List.nil_append, loadOperands, registerSlot_toNat,
      r.isLt, dif_pos, Fin.eta]
  | value v => rfl
  | address a =>
    have hin : addressInBound bound a = true := h
    simp only [Operand.type, Operand.bytes, OperandType.slots, List.cons_append, List.nil_append, loadOperands, addressOfBytes_bytes,
      hin, if_true]

/-- The same for several operands: what is behind them decides. -/
theorem loadOperands_append_bytes {bound : Option Nat} {ops : List Operand} (h : ∀ op ∈ ops, op.inBound bound = true) (sig : Signature)
    (bytes : List Byte) (last : Nat) :
    loadOperands bound (ops.map Operand.type ++ sig) (ops.flatMap Operand.bytes ++ bytes) last
      = (loadOperands bound sig bytes (last + signatureSlots (ops.map Operand.type))).map (ops ++ ·) := by
  induction ops generalizing last with
  | nil =>
    simp only [List.map_nil, List.nil_append, List.flatMap_nil, signatureSlots_nil, Nat.add_zero]
    cases loadOperands bound sig bytes last <;> rfl
  | cons op ops ih =>
    obtain ⟨hop, hops⟩ := List.forall_mem_cons.1 h
    simp only [List.map_cons, List.cons_append, List.flatMap_cons, List.append_assoc, loadOperands_cons_bytes hop, ih hops,
      signatureSlots_cons, Nat.add_assoc]
    cases loadOperands bound sig bytes (last + (op.type.slots + signatureSlots (ops.map Operand.type))) <;> rfl

/-- A register slot byte of 8 or more ends the operand phase (R102, R164). -/
theorem loadOperands_register_of_le {b : Byte} (h : 8 ≤ b.toNat) (bound : Option Nat) (sig : Signature) (bytes : List Byte) (last : Nat) :
    loadOperands bound (.register :: sig) (b :: bytes) last = .error (.operandRange, last + 1) := by
  simp only [loadOperands, Nat.not_lt.2 h, dif_neg, not_false_eq_true]

/-- Settles O37: the slots before it are the bytes of in-bound operands, so the operand phase comes to the register slot. -/
theorem registerSlotOutOfRange : Obligations.RegisterSlotOutOfRange := by
  intro bound before after bytes rest b ops hlen hload hb
  obtain ⟨rfl, hbound, extra, rfl⟩ := loadOperands_ok hload
  have hextra : extra = [] := by
    rw [List.length_append, operandsBytes_length] at hlen
    exact List.eq_nil_of_length_eq_zero (by omega)
  rw [hextra, List.append_nil, loadOperands_append_bytes hbound, loadOperands_register_of_le hb, Nat.zero_add]
  rfl

/-! ## The reference table -/

/-- The reference opcodes are 0x00 to 0x0D (R113). -/
theorem referenceTable_opcodes : referenceTable.map TableRow.opcode = (List.range 14).map (BitVec.ofNat 8) := rfl

/-- A byte has no entry exactly where no row has it for its opcode (R111). -/
theorem lookupOpcode_eq_none_iff {t : SyntaxTable} {op : Byte} : lookupOpcode t op = none ↔ op ∉ t.map TableRow.opcode := by
  simp [lookupOpcode]

/-- Settles O39: the words by evaluation, and the unbound bytes from the range of the reference opcodes. -/
theorem referenceWordsDecode : Obligations.ReferenceWordsDecode := by
  refine ⟨by decide, by decide, by decide, by decide, by decide, fun op => ?_⟩
  have hmem : op ∈ (List.range 14).map (BitVec.ofNat 8) ↔ op.toNat < 14 := by
    constructor
    · intro h
      obtain ⟨k, hk, rfl⟩ := List.mem_map.1 h
      have hlt := List.mem_range.1 hk
      rw [BitVec.toNat_ofNat]
      omega
    · exact fun h => List.mem_map.2 ⟨op.toNat, List.mem_range.2 h, by simp⟩
  rw [lookupOpcode_eq_none_iff, referenceTable_opcodes, hmem]
  exact Nat.not_lt

end Sys2Proof
end

section
/-!
What a step does with the bytes at `pc` (O28, O31, O33): the fetch gives the decoder exactly the bytes of the entry, and each branch of the
decoder is then a branch of the step.
-/

namespace Sys2Proof.Machine

/-! ## The step and the decoder -/

/-- A decoded instruction is run (R161, R170). -/
theorem step_of_decodeNext_instr {s : State} (hh : s.h = false) (he : s.err = none) {i : Instr} (h : s.decodeNext = .instr i) :
    step s = exec i s := by
  rw [step_of_running hh he, h]

/-- A rejection is its error entry, with `pc` at the last byte read (R171, R303). -/
theorem step_of_decodeNext_reject {s : State} (hh : s.h = false) (he : s.err = none) {why : DecodeReject} {last : Nat}
    (h : s.decodeNext = .reject why last) :
    step s = .next (errorState s (DecodeReject.errKind why) (s.pc + BitVec.ofNat 16 last)) := by
  rw [step_of_running hh he, h]
  rfl

/-- The decoder is given the opcode byte and the fetched slots of its entry (R105, R163). -/
theorem State.instrBytes_of_lookup {s : State} {row : TableRow} (h : lookupOpcode s.cfg.table (s.romRead s.pc) = some row) :
    s.instrBytes = s.romRead s.pc :: (s.fetchBytes (1 + signatureSlots row.signature) s.pc).tail := by
  rw [State.instrBytes, entryLength_of_lookup h, Nat.add_comm 1, State.fetchBytes_succ, List.tail_cons]

/-- Where ROM holds an instruction of the entry's signature from `pc` on and the increments succeed, the fetch gives its encoding (R106, R169). -/
theorem State.instrBytes_of_encoded {s : State} {i : Instr} {row : TableRow}
    (hrow : lookupOpcode s.cfg.table (s.romRead s.pc) = some row) (hs : row.signature = i.signature)
    (hfits : s.pcFits (i.length - 1) = true)
    (hrom : ∀ k (h : k < (encodeWith (s.romRead s.pc) i).length),
      s.romRead (s.pc + BitVec.ofNat 16 k) = (encodeWith (s.romRead s.pc) i)[k]) :
    s.instrBytes = encodeWith (s.romRead s.pc) i := by
  have hlen : entryLength s.cfg (s.romRead s.pc) = i.length - 1 + 1 := by
    rw [entryLength_of_lookup hrow, hs, Instr.length]
    omega
  refine List.ext_getElem ?_ fun k hk hk' => ?_
  · rw [State.instrBytes, hlen, State.fetchBytes_length_of_fits hfits, encodeWith_length, Instr.length]
    omega
  · rw [← hrom k hk']
    exact s.fetchBytes_getElem _ s.pc k hk

/-- Settles O28: the fetch gives the encoding, and the decoder inverts it (`decodeOfEncode`). -/
theorem stepRunsAnEncodedInstruction : Obligations.StepRunsAnEncodedInstruction := by
  intro s i row hh he hrow hm hs hwf hfits hrom
  have hdecode := decodeOfEncode s.cfg _ row i [] hrow hm hs hwf
  rw [List.append_nil, ← State.instrBytes_of_encoded hrow hs hfits hrom] at hdecode
  exact step_of_decodeNext_instr hh he hdecode

/-- Settles O33: one branch of the decoder for each outcome. -/
theorem decodingHasThreeOutcomes : Obligations.DecodingHasThreeOutcomes := by
  intro s hh he
  refine ⟨fun hnone => ?_, fun row why last hrow hload => ?_, fun row ops hrow hload => ⟨fun i hm hops => ?_, fun hform => ?_⟩⟩
  · obtain ⟨rest, hbytes⟩ := s.instrBytes_eq
    have hstep := step_of_decodeNext_reject hh he (by rw [State.decodeNext, hbytes, decode_of_lookup_none hnone])
    rwa [BitVec.add_zero] at hstep
  · exact step_of_decodeNext_reject hh he <| by
      rw [State.decodeNext, State.instrBytes_of_lookup hrow, decode_of_loadOperands_error hrow hload]
  · exact step_of_decodeNext_instr hh he <| by
      rw [State.decodeNext, State.instrBytes_of_lookup hrow]
      exact decode_eq_instr_iff.2 ⟨row, hrow, hm.symm, hops ▸ hload⟩
  · exact step_of_decodeNext_reject hh he <| by
      rw [State.decodeNext, State.instrBytes_of_lookup hrow, decode_of_no_form hrow hload hform]

/-! ## The causes of the errors -/

/-- Everything the error of a meaning can be: the stack engine's, or an increment of `pc` past 0xFFFF; not a range error, because the decoder
has accepted the operands (R117, R166, R171). -/
theorem exec_error_cases {i : Instr} {s t : State} {e : ErrorRecord} (hdecode : s.decodeNext = .instr i) (h : exec i s = .next t)
    (hnone : s.err = none) (he : t.err = some e) :
    (e.kind = .stackOverflow ∧ (∃ rs, i = .push rs) ∧ s.sp.val = 32 ∧ t.pc = s.pc + 1) ∨
      (e.kind = .stackUnderflow ∧ (∃ rd, i = .pop rd) ∧ s.sp.val = 0 ∧ t.pc = s.pc + 1) ∨
      (e.kind = .pcWrap ∧ s.cfg.pcWrap = .fault ∧ t.pc = 0xFFFF) := by
  obtain ⟨-, -, -, -, -, -, hkept | ⟨k, ht, hcause⟩ | ⟨hwrap, hfault, hpc, -⟩⟩ := exec_cases h
  · rw [hkept, hnone] at he
    cases he
  · have hk : e.kind = k := by
      rw [ht, State.enterError_err] at he
      cases he
      rfl
    cases k with
    | operandRange =>
      obtain ⟨hwf, -⟩ := State.decodeNext_instr hdecode
      exact absurd hwf (Bool.eq_false_iff.1 hcause)
    | stackOverflow => exact .inl ⟨hk, hcause⟩
    | stackUnderflow => exact .inr (.inl ⟨hk, hcause⟩)
    | pcWrap => exact .inr (.inr ⟨hk, hcause⟩)
    | decodeError => exact hcause.elim
    | unimplementedOpcode => exact hcause.elim
  · cases hwrap.symm.trans he
    exact .inr (.inr ⟨rfl, hfault, hpc⟩)

/-- Settles O31: the errors of a meaning and the rejections of the decoder, each with what it says. -/
theorem errorKindsHaveTheirCauses : Obligations.ErrorKindsHaveTheirCauses := by
  refine ⟨⟨rfl, rfl, rfl, rfl, rfl, rfl⟩, fun s t e h he => ?_⟩
  obtain ⟨-, hnone, ⟨i, hdecode, hexec⟩ | ⟨why, last, hdecode, rfl⟩⟩ := step_cases h
  · obtain ⟨hk, ⟨rs, rfl⟩, hsp, hpc⟩ | ⟨hk, ⟨rd, rfl⟩, hsp, hpc⟩ | ⟨hk, hfault, hpc⟩ := exec_error_cases hdecode hexec hnone he
    · simp only [hk]
      exact ⟨⟨rs, hdecode⟩, hsp, hpc⟩
    · simp only [hk]
      exact ⟨⟨rd, hdecode⟩, hsp, hpc⟩
    · simp only [hk]
      exact ⟨hfault, hpc⟩
  · have hcause := State.decodeNext_reject hdecode
    cases he
    cases why with
    | unknownOpcode =>
      obtain ⟨hrow, rfl⟩ := hcause
      exact ⟨hrow, BitVec.add_zero _⟩
    | operandRange =>
      obtain ⟨row, hrow, hslot⟩ := hcause
      exact ⟨row, last, hrow, hdecode, rfl, hslot⟩
    | noSemantics =>
      obtain ⟨row, hrow, hform, rfl⟩ := hcause
      exact ⟨row, hrow, hform, rfl⟩
    | bytesExhausted => exact hcause

end Sys2Proof.Machine
end

section
/-!
Loading a Syntax Table (O51): a description loads entry by entry, and the rows that come out carry the opcode numbers that went in.
-/

namespace Sys2Proof.Machine

/-! ## Reading every member of a list -/

/-- Reading every member of a list in `Option` gives the list of what each reads as. -/
theorem mapM_eq_some_iff {α β : Type} {f : α → Option β} {l : List α} {l' : List β} :
    l.mapM f = some l' ↔ l.map f = l'.map some := by
  induction l generalizing l' with
  | nil => cases l' <;> simp
  | cons a l ih =>
    rw [List.mapM_cons]
    cases ha : f a with
    | none => cases l' <;> simp [ha]
    | some b =>
      cases hl : l.mapM f with
      | none =>
        have hnone : ∀ l' : List β, l.map f ≠ l'.map some := fun l' h => by simp [ih.2 h] at hl
        cases l' <;> simp [ha, hnone]
      | some bs =>
        have hbs := ih.1 hl
        cases l' with
        | nil => simp
        | cons b' bs' => simp [ha, hbs, List.map_inj_right]

/-- It succeeds exactly if every member reads as something. -/
theorem exists_mapM_eq_some_iff {α β : Type} {f : α → Option β} {l : List α} :
    (∃ l', l.mapM f = some l') ↔ ∀ a ∈ l, ∃ b, f a = some b := by
  simp only [mapM_eq_some_iff]
  constructor
  · rintro ⟨l', h⟩ a ha
    obtain ⟨b, -, hb⟩ := List.mem_map.1 (h ▸ List.mem_map_of_mem (f := f) ha)
    exact ⟨b, hb.symm⟩
  · intro h
    induction l with
    | nil => exact ⟨[], rfl⟩
    | cons a l ih =>
      obtain ⟨⟨b, hb⟩, hl⟩ := List.forall_mem_cons.1 h
      obtain ⟨bs, hbs⟩ := ih hl
      exact ⟨b :: bs, by simp [hb, hbs]⟩

/-! ## Rows of a description -/

/-- The three tags are the operand types, and no other string is one (R118). -/
theorem exists_operandTypeOfTag_iff {tag : String} :
    (∃ t, operandTypeOfTag tag = some t) ↔ tag ∈ ["register", "value", "address"] := by
  unfold operandTypeOfTag
  by_cases hr : tag = "register"
  · simp [hr]
  by_cases hv : tag = "value"
  · simp [hv]
  by_cases ha : tag = "address"
  · simp [ha]
  · simp [hr, hv, ha]

/-- What the row of an entry is: the entry's mnemonic, its opcode number as a byte, and the types of its tags (R110, R118). -/
theorem rowOfDescription_eq_some_iff {mnemonic : String} {opcode : Nat} {tags : List String} {row : TableRow} :
    rowOfDescription mnemonic opcode tags = some row ↔
      row.mnemonic = mnemonic ∧ row.opcode.toNat = opcode ∧ tags.map operandTypeOfTag = row.signature.map some := by
  obtain ⟨o, m, sig⟩ := row
  have ho := o.isLt
  unfold rowOfDescription
  split
  case isTrue hlt =>
    have hbyte : BitVec.ofNat 8 opcode = o ↔ o.toNat = opcode := by
      rw [BitVec.toNat_eq, BitVec.toNat_ofNat]
      omega
    simp only [Option.map_eq_some_iff, TableRow.mk.injEq, mapM_eq_some_iff]
    constructor
    · rintro ⟨sig', hsig, hop, rfl, rfl⟩
      exact ⟨rfl, hbyte.1 hop, hsig⟩
    · rintro ⟨rfl, hop, hsig⟩
      exact ⟨sig, hsig, hbyte.2 hop, rfl, rfl⟩
  case isFalse hge =>
    refine ⟨nofun, fun ⟨_, hop, _⟩ => ?_⟩
    simp only at hop
    omega

/-- Which entries have a row (R110, R118). -/
theorem exists_rowOfDescription_iff {mnemonic : String} {opcode : Nat} {tags : List String} :
    (∃ row, rowOfDescription mnemonic opcode tags = some row) ↔
      opcode < 256 ∧ ∀ tag ∈ tags, tag ∈ ["register", "value", "address"] := by
  unfold rowOfDescription
  simp only [← exists_operandTypeOfTag_iff, ← exists_mapM_eq_some_iff]
  split
  case isTrue hlt => simp [hlt, Option.map_eq_some_iff]
  case isFalse hge => simp [hge]

/-! ## Entries of a description -/

/-- The entries of a description, one for each opcode number under each mnemonic. -/
def TableDescription.entries (d : TableDescription) : List (String × (Nat × List String)) :=
  d.flatMap fun e => e.2.map fun v => (e.1, v)

/-- The row an entry loads as. -/
def rowOfEntry (e : String × (Nat × List String)) : Option TableRow := rowOfDescription e.1 e.2.1 e.2.2

/-- A description with an entry that has no row is refused (R110). -/
theorem loadTable_of_none {d : TableDescription} (h : d.entries.mapM rowOfEntry = none) :
    loadTable d = .error .syntaxTableLoadError := by
  change d.entries.mapM (fun e => rowOfDescription e.1 e.2.1 e.2.2) = none at h
  simp only [TableDescription.entries] at h
  simp only [loadTable, h]

/-- A description whose entries all have a row loads as these rows, if no opcode stands twice (R110). -/
theorem loadTable_of_rows {d : TableDescription} {t : SyntaxTable} (h : d.entries.mapM rowOfEntry = some t) :
    loadTable d = if SyntaxTable.wf t then .ok t else .error .syntaxTableLoadError := by
  change d.entries.mapM (fun e => rowOfDescription e.1 e.2.1 e.2.2) = some t at h
  simp only [TableDescription.entries] at h
  simp only [loadTable, h]

theorem TableDescription.mem_entries {d : TableDescription} {e : String × (Nat × List String)} :
    e ∈ d.entries ↔ ∃ vs, (e.1, vs) ∈ d ∧ e.2 ∈ vs := by
  obtain ⟨m, v⟩ := e
  simp [TableDescription.entries]

theorem TableDescription.entries_length (d : TableDescription) : d.entries.length = (d.map fun e => e.2.length).sum := by
  simp [TableDescription.entries, List.length_flatMap]

theorem TableDescription.entries_opcodes (d : TableDescription) :
    (d.entries.map fun e => e.2.1) = d.flatMap fun e => e.2.map Prod.fst := by
  simp [TableDescription.entries, List.map_flatMap, Function.comp_def]

/-- Every entry has a row exactly if every opcode is a byte and every tag an operand type (R110, R118). -/
theorem exists_rows_iff {d : TableDescription} :
    (∃ t, d.entries.mapM rowOfEntry = some t) ↔
      ∀ e ∈ d, ∀ v ∈ e.2, v.1 < 256 ∧ ∀ tag ∈ v.2, tag ∈ ["register", "value", "address"] := by
  rw [exists_mapM_eq_some_iff]
  simp only [rowOfEntry, exists_rowOfDescription_iff, TableDescription.mem_entries]
  exact ⟨fun h e he v hv => h (e.1, v) ⟨e.2, he, hv⟩, fun h e ⟨vs, he, hv⟩ => h (e.1, vs) he e.2 hv⟩

/-- The rows have the opcode numbers of the entries, so the table is well-formed exactly if no number stands twice (R110). -/
theorem rows_wf_iff {d : TableDescription} {t : SyntaxTable} (h : d.entries.mapM rowOfEntry = some t) :
    SyntaxTable.wf t ↔ (d.flatMap fun e => e.2.map Prod.fst).Nodup := by
  have hrows := mapM_eq_some_iff.1 h
  rw [← List.forall₂_eq_eq_eq, List.forall₂_map_left_iff, List.forall₂_map_right_iff] at hrows
  have hopcodes : (d.entries.map fun e => e.2.1) = t.map fun row => row.opcode.toNat := by
    rw [← List.forall₂_eq_eq_eq, List.forall₂_map_left_iff, List.forall₂_map_right_iff]
    refine hrows.imp fun e row hrow => ?_
    obtain ⟨-, hop, -⟩ := rowOfDescription_eq_some_iff.1 hrow
    exact hop.symm
  have hinj : Function.Injective (BitVec.toNat : Byte → Nat) := fun _ _ => BitVec.eq_of_toNat_eq
  rw [← TableDescription.entries_opcodes, hopcodes, SyntaxTable.wf, ← List.nodup_map_iff hinj, List.map_map]
  rfl

/-- Settles O51: the entries all have rows exactly if the description is legal, and the rows are a table exactly if no number stands twice. -/
theorem loadedTablesAreWellFormed : Obligations.LoadedTablesAreWellFormed := by
  intro d
  cases hrows : d.entries.mapM rowOfEntry with
  | none =>
    have hillegal : ¬ ∀ e ∈ d, ∀ v ∈ e.2, v.1 < 256 ∧ ∀ tag ∈ v.2, tag ∈ ["register", "value", "address"] := by
      rw [← exists_rows_iff, hrows]
      exact nofun
    rw [if_neg fun h => hillegal h.1]
    exact loadTable_of_none hrows
  | some t =>
    have hload := loadTable_of_rows hrows
    split
    case isTrue h =>
      have hwf := (rows_wf_iff hrows).2 h.2
      have hmap := mapM_eq_some_iff.1 hrows
      have hlen : t.length = (d.map fun e => e.2.length).sum := by
        rw [← TableDescription.entries_length]
        simpa using (congrArg List.length hmap).symm
      refine ⟨t, by rw [hload, if_pos hwf], hwf, hlen, fun e he v hv => ?_⟩
      have hentry : (e.1, v) ∈ d.entries := TableDescription.mem_entries.2 ⟨e.2, he, hv⟩
      obtain ⟨row, hrow, hread⟩ := List.mem_map.1 (hmap ▸ List.mem_map_of_mem (f := rowOfEntry) hentry)
      exact ⟨row, hrow, rowOfDescription_eq_some_iff.1 hread.symm⟩
    case isFalse h =>
      have hbad : ¬ SyntaxTable.wf t := fun hwf => h ⟨exists_rows_iff.1 ⟨t, hrows⟩, (rows_wf_iff hrows).1 hwf⟩
      rw [hload, if_neg hbad]

end Sys2Proof.Machine
end

section
/-!
Operand tokens (O55 to O57): which tokens parse as a register, a value and an address.
-/

namespace Sys2Proof.Machine

/-! ## Hexadecimal digits -/

/-- The ranges of the hexadecimal digits, as character codes. -/
theorem hexDigit_isSome_iff (ch : Char) :
    (hexDigit ch).isSome = true ↔
      (48 ≤ ch.toNat ∧ ch.toNat ≤ 57) ∨ (97 ≤ ch.toNat ∧ ch.toNat ≤ 102) ∨ (65 ≤ ch.toNat ∧ ch.toNat ≤ 70) := by
  have hrange : ∀ lo hi : Char, (lo ≤ ch ∧ ch ≤ hi) ↔ (lo.toNat ≤ ch.toNat ∧ ch.toNat ≤ hi.toNat) := fun _ _ => Iff.rfl
  simp only [hexDigit, hrange, Char.reduceToNat]
  split_ifs <;> simp only [Option.isSome_some, Option.isSome_none, Bool.false_eq_true, true_iff, false_iff] <;> omega

/-- The hexadecimal digits are the characters in these ranges, each with its number (R134). -/
theorem hexDigitValues : HexDigitValues := by
  refine ⟨fun ch => ?_, by decide⟩
  rw [hexDigit_isSome_iff]
  simp only [String.reduceToList, List.mem_cons, List.not_mem_nil, or_false, ← Char.toNat_inj, Char.reduceToNat]
  omega

/-! ## Tokens with a number in them -/

/-- The words of `w` bits are the numbers up to `max`, where these are all of `w` bits. -/
theorem boundedWord_eq_some_iff {w max n : Nat} (hmax : max + 1 = 2 ^ w) (v : BitVec w) :
    (if n ≤ max then some (BitVec.ofNat w n) else none) = some v ↔ n = v.toNat := by
  have hv := v.isLt
  split
  case isTrue hn => rw [Option.some.injEq, BitVec.toNat_eq, BitVec.toNat_ofNat, Nat.mod_eq_of_lt (by omega)]
  case isFalse hn => exact ⟨nofun, by omega⟩

/-- A value token is the mark and the hexadecimal number of the byte (R134). -/
theorem parseValue_eq_some_iff (token : List Char) (v : Byte) :
    parseValue token = some v ↔ ∃ digits, token = '#' :: digits ∧ hexNumber digits = some v.toNat := by
  unfold parseValue
  split
  case h_1 digits =>
    simp only [List.cons.injEq, true_and, exists_eq_left']
    cases hexNumber digits with
    | none => simp
    | some n => rw [Option.some.injEq, ← boundedWord_eq_some_iff (w := 8) (max := 0xFF) rfl]
  case h_2 hmark =>
    exact ⟨nofun, fun ⟨digits, htoken, _⟩ => absurd htoken (hmark digits)⟩

/-- An address token is the mark and the hexadecimal number of the address (R135). -/
theorem parseAddress_eq_some_iff (token : List Char) (a : Word) :
    parseAddress token = some a ↔ ∃ digits, token = '$' :: digits ∧ hexNumber digits = some a.toNat := by
  unfold parseAddress
  split
  case h_1 digits =>
    simp only [List.cons.injEq, true_and, exists_eq_left']
    cases hexNumber digits with
    | none => simp
    | some n => rw [Option.some.injEq, ← boundedWord_eq_some_iff (w := 16) (max := 0xFFFF) rfl]
  case h_2 hmark =>
    exact ⟨nofun, fun ⟨digits, htoken, _⟩ => absurd htoken (hmark digits)⟩

/-! ## The three operand types -/

/-- Settles O55: the parser lists the eight tokens, one for each register. -/
theorem registerToken : Obligations.RegisterToken := by
  intro token n
  constructor
  · intro h
    unfold parseRegister at h
    split at h <;> cases h <;> rfl
  · rintro rfl
    revert n
    decide

/-- Settles O56: the digits behind the mark are the number of the byte, which is at most 0xFF. -/
theorem valueToken : Obligations.ValueToken := by
  refine ⟨hexDigitValues, fun token v => ?_⟩
  simp only [parseValue_eq_some_iff, hexNumber_iff, exists_and_left]

/-- Settles O57: the digits behind the mark are the number of the address, whose bytes are its remainder and quotient by 256. -/
theorem addressToken : Obligations.AddressToken := by
  refine ⟨hexDigitValues, fun token a => ?_, fun a => ⟨loByte_toNat a, hiByte_toNat a⟩⟩
  simp only [parseAddress_eq_some_iff, hexNumber_iff, exists_and_left]

end Sys2Proof.Machine
end

section
/-!
Statements and lines of the assembler (O54, O58 to O60): what each kind of statement answers, that a canonical line is the statement it spells,
and which variant of a mnemonic is assembled.
-/

namespace Sys2Proof.Machine

/-! ## Variants -/

/-- No variant matches exactly if the signature of none parses the tokens (R138). -/
theorem matchVariant_eq_none_iff {rows : List TableRow} {tokens : List (List Char)} :
    matchVariant rows tokens = none ↔ ∀ row ∈ rows, parseOperands row.signature tokens = none := by
  induction rows with
  | nil => simp [matchVariant]
  | cons row rows ih =>
    simp only [matchVariant]
    cases h : parseOperands row.signature tokens with
    | none => simp [h, ih]
    | some ops => simp [h]

/-- The variant that matches is the first whose signature parses the tokens, and its bytes are its opcode and its operands' (R138, R139). -/
theorem exists_of_matchVariant {rows : List TableRow} {tokens : List (List Char)} {bytes : List Byte}
    (h : matchVariant rows tokens = some bytes) :
    ∃ (before : List TableRow) (row : TableRow) (after : List TableRow) (ops : List Operand), rows = before ++ row :: after ∧
      (∀ other ∈ before, parseOperands other.signature tokens = none) ∧
      parseOperands row.signature tokens = some ops ∧ bytes = row.opcode :: ops.flatMap Operand.bytes := by
  induction rows with
  | nil => cases h
  | cons row rows ih =>
    simp only [matchVariant] at h
    cases hops : parseOperands row.signature tokens with
    | some ops =>
      simp only [hops, Option.some.injEq] at h
      exact ⟨[], row, rows, ops, rfl, nofun, hops, h.symm⟩
    | none =>
      simp only [hops] at h
      obtain ⟨before, row', after, ops, rfl, hbefore, hrow', hbytes⟩ := ih h
      exact ⟨row :: before, row', after, ops, rfl, List.forall_mem_cons.2 ⟨hops, hbefore⟩, hrow', hbytes⟩

/-- Settles O59: the variants stand in ascending opcode order, so one with a lower opcode stands before the first that matches. -/
theorem instructionMatching : Obligations.InstructionMatching := by
  intro t mnemonic tokens
  refine ⟨fun bytes h => ?_, ?_⟩
  · obtain ⟨before, row, after, ops, hrows, hbefore, hops, hbytes⟩ := exists_of_matchVariant h
    obtain ⟨hrow, hm⟩ := (mem_variantsOf t mnemonic row).1 (by simp [hrows])
    refine ⟨row, hrow, ops, hm, hops, hbytes, fun other hother hm' hlt => ?_⟩
    have hmem := (mem_variantsOf t mnemonic other).2 ⟨hother, hm'⟩
    have hsorted := variantsOf_sorted t mnemonic
    rw [hrows] at hmem hsorted
    obtain ⟨-, hfrom, -⟩ := List.pairwise_append.1 hsorted
    obtain ⟨hleast, -⟩ := List.pairwise_cons.1 hfrom
    rcases List.mem_append.1 hmem with hin | hin
    · exact hbefore other hin
    · rcases List.mem_cons.1 hin with rfl | hafter
      · exact absurd hlt (Nat.lt_irrefl _)
      · exact absurd hlt (Nat.not_lt.2 (hleast other hafter))
  · rw [matchVariant_eq_none_iff]
    simp only [mem_variantsOf, and_imp]

/-! ## Statements -/

section
variable {t : SyntaxTable} {err : AsmErrorKind → AsmError} {st : AsmState} {mnemonic : List Char} {tokens : List (List Char)}

theorem emit_of_le {bytes : List Byte} (h : st.cursor + bytes.length ≤ romSize) :
    emit err st bytes = .ok ⟨st.cursor + bytes.length, st.image.writeBytes st.cursor bytes⟩ := by
  simp only [emit, if_pos h]

theorem emit_of_lt {bytes : List Byte} (h : romSize < st.cursor + bytes.length) :
    emit err st bytes = .error (err .encodingError) := by
  simp only [emit, if_neg (Nat.not_le.2 h)]

theorem assembleStatement_text {a : Word} (h : parseOperands [.address] tokens = some [.address a]) :
    assembleStatement t err st ".text".toList tokens = .ok ⟨a.toNat, st.image⟩ := by
  simp only [assembleStatement, if_true, h]

theorem assembleStatement_text_error (h : ∀ a, parseOperands [.address] tokens ≠ some [.address a]) :
    assembleStatement t err st ".text".toList tokens = .error (err .syntaxError) := by
  simp only [assembleStatement, if_true]

theorem assembleStatement_byte {a : Word} {v : Byte} (h : parseOperands [.address, .value] tokens = some [.address a, .value v]) :
    assembleStatement t err st ".byte".toList tokens = .ok ⟨st.cursor, st.image.write a.toNat v⟩ := by
  have hne : ".byte".toList ≠ ".text".toList := by decide
  simp only [assembleStatement, if_neg hne, if_true, h]

theorem assembleStatement_byte_error (h : ∀ a v, parseOperands [.address, .value] tokens ≠ some [.address a, .value v]) :
    assembleStatement t err st ".byte".toList tokens = .error (err .syntaxError) := by
  have hne : ".byte".toList ≠ ".text".toList := by decide
  simp only [assembleStatement, if_neg hne, if_true]

/-- A mnemonic under which no entry stands is unknown (R140). -/
theorem variantsOf_eq_nil_iff : variantsOf t mnemonic = [] ↔ ∀ row ∈ t, row.mnemonic.toList ≠ mnemonic := by
  simp only [List.eq_nil_iff_forall_not_mem, mem_variantsOf, not_and, ne_eq]

theorem assembleStatement_unknown (ht : mnemonic ≠ ".text".toList) (hb : mnemonic ≠ ".byte".toList)
    (h : ∀ row ∈ t, row.mnemonic.toList ≠ mnemonic) :
    assembleStatement t err st mnemonic tokens = .error (err .syntaxError) := by
  simp only [assembleStatement, if_neg ht, if_neg hb, if_pos (variantsOf_eq_nil_iff.2 h)]

theorem assembleStatement_no_variant (ht : mnemonic ≠ ".text".toList) (hb : mnemonic ≠ ".byte".toList)
    (hknown : variantsOf t mnemonic ≠ []) (h : matchVariant (variantsOf t mnemonic) tokens = none) :
    assembleStatement t err st mnemonic tokens = .error (err .encodingError) := by
  simp only [assembleStatement, if_neg ht, if_neg hb, if_neg hknown, h]

theorem assembleStatement_matched (ht : mnemonic ≠ ".text".toList) (hb : mnemonic ≠ ".byte".toList) {bytes : List Byte}
    (h : matchVariant (variantsOf t mnemonic) tokens = some bytes) :
    assembleStatement t err st mnemonic tokens = emit err st bytes := by
  have hknown : variantsOf t mnemonic ≠ [] := fun hnil => by
    rw [hnil] at h
    cases h
  simp only [assembleStatement, if_neg ht, if_neg hb, if_neg hknown, h]

/-- Every error of a statement is made by the statement's own error function, which knows the line and the tokens (R140). -/
theorem exists_of_assembleStatement_error {e : AsmError} (h : assembleStatement t err st mnemonic tokens = .error e) :
    ∃ kind, e = err kind := by
  have hmake : ∀ {kind}, (Except.error (err kind) : Except AsmError AsmState) = .error e → ∃ kind, e = err kind :=
    fun h => ⟨_, (Except.error.inj h).symm⟩
  unfold assembleStatement at h
  split at h
  · split at h
    · cases h
    · exact hmake h
  split at h
  · split at h
    · cases h
    · exact hmake h
  split at h
  · exact hmake h
  split at h
  · unfold emit at h
    split at h
    · cases h
    · exact hmake h
  · exact hmake h

end

/-! ## Lines -/

/-- An error of a line carries its number and all its tokens (R140, log entry 17). -/
theorem assembleLine_error {t : SyntaxTable} {line : Nat} {st : AsmState} {text : List Char} {e : AsmError}
    (h : assembleLine t line st text = .error e) : e.line = line ∧ e.tokens = tokensOf (stripComment text) := by
  unfold assembleLine at h
  split at h
  · cases h
  · split at h
    case h_1 hnil =>
      cases h
      exact ⟨rfl, hnil.symm⟩
    case h_2 mnemonic operands hcons =>
      obtain ⟨kind, rfl⟩ := exists_of_assembleStatement_error h
      exact ⟨rfl, hcons.symm⟩

/-- Lines that assemble hand their state on to the lines behind them (R130). -/
theorem assembleLines_append {t : SyntaxTable} {done : List (List Char)} {line : Nat} {st st' : AsmState}
    (h : assembleLines t line st done = .ok st') (rest : List (List Char)) :
    assembleLines t line st (done ++ rest) = assembleLines t (line + done.length) st' rest := by
  induction done generalizing line st with
  | nil =>
    cases h
    rfl
  | cons text done ih =>
    simp only [List.cons_append, assembleLines, List.length_cons] at h ⊢
    cases hline : assembleLine t line st text with
    | error e => simp [hline] at h
    | ok u =>
      simp only [hline] at h ⊢
      rw [ih h, Nat.add_assoc, Nat.add_comm 1]

/-- Settles O60: one kind of error for each way a statement fails, and no line behind a failing one is assembled. -/
theorem assemblyErrors : Obligations.AssemblyErrors := by
  refine ⟨fun t err st mnemonic tokens => ⟨?_, ?_, fun ht hb => ⟨assembleStatement_unknown ht hb, fun hknown hnone => ?_⟩⟩,
    fun t done line rest st st' e hdone hline => ⟨?_, ?_⟩⟩
  · rintro rfl
    exact assembleStatement_text_error
  · rintro rfl
    exact assembleStatement_byte_error
  · refine assembleStatement_no_variant ht hb (fun hnil => ?_) ((instructionMatching t mnemonic tokens).2.2 hnone)
    obtain ⟨row, hrow, hm⟩ := hknown
    exact variantsOf_eq_nil_iff.1 hnil row hrow hm
  · rw [assembleLines_append hdone, assembleLines, Nat.add_comm 1, hline]
  · exact assembleLine_error hline

/-! ## Canonical lines -/

/-- A line in canonical spelling: a mnemonic, and a space before its operands if it has any (R143). -/
def statementText (mnemonic : List Char) (ops : List Operand) : List Char :=
  mnemonic ++ if ops = [] then [] else ' ' :: operandsText ops

theorem canonicalText_eq (i : Instr) : canonicalText i = statementText i.mnemonic.toList i.operands := rfl

/-- Being a token, as a check that evaluates. -/
theorem isToken_iff_all {token : List Char} : IsToken token ↔ token ≠ [] ∧ (token.all fun ch => !isSeparator ch && ch != ';') = true := by
  simp [IsToken]

/-- The mnemonics of the defined forms (R112). -/
def mnemonics : List String :=
  ["NOP", "JUMP", "PUSH", "POP", "CLEAR", "INC", "HALT", "ADD", "MOV", "LPM", "LOAD", "STORE"]

theorem mnemonic_mem_mnemonics (i : Instr) : i.mnemonic ∈ mnemonics := by
  cases i <;> simp [Instr.mnemonic, mnemonics]

/-- Every mnemonic is one token (R131). -/
theorem isToken_mnemonic (i : Instr) : IsToken i.mnemonic.toList := by
  have hall : ∀ m ∈ mnemonics, m.toList ≠ [] ∧ (m.toList.all fun ch => !isSeparator ch && ch != ';') = true := by decide
  exact isToken_iff_all.2 (hall _ (mnemonic_mem_mnemonics i))

/-- No instruction is called like a directive (R112, R136, R137). -/
theorem mnemonic_ne_directive (i : Instr) : i.mnemonic.toList ≠ ".text".toList ∧ i.mnemonic.toList ≠ ".byte".toList := by
  have hall : ∀ m ∈ mnemonics, m.toList ≠ ".text".toList ∧ m.toList ≠ ".byte".toList := by decide
  exact hall _ (mnemonic_mem_mnemonics i)

theorem isToken_directive : IsToken ".text".toList ∧ IsToken ".byte".toList := by
  rw [isToken_iff_all, isToken_iff_all]
  decide

/-- The digits of a byte are no separators and start no comment. -/
theorem hexOfByte_plain (b : Byte) : ∀ ch ∈ hexOfByte b, isSeparator ch = false ∧ ch ≠ ';' := by
  have hdigit : ∀ n, n < 16 → isSeparator (hexChar n) = false ∧ hexChar n ≠ ';' := fun n hn =>
    have ⟨hsep, hcomment, _, _⟩ := hexChar_ok ⟨n, hn⟩
    ⟨hsep, hcomment⟩
  have hb := b.isLt
  simp only [hexOfByte, List.forall_mem_cons, List.not_mem_nil, false_imp_iff, implies_true, and_true]
  exact ⟨hdigit _ (by omega), hdigit _ (by omega)⟩

/-- The canonical spelling of an operand is one token (R131, R143). -/
theorem isToken_operandText (op : Operand) : IsToken (operandText op) := by
  cases op with
  | register r =>
    rw [isToken_iff_all]
    revert r
    decide
  | value v => exact ⟨List.cons_ne_nil _ _, List.forall_mem_cons.2 ⟨by decide, hexOfByte_plain v⟩⟩
  | address a =>
    exact ⟨List.cons_ne_nil _ _, List.forall_mem_cons.2 ⟨by decide,
      List.forall_mem_append.2 ⟨hexOfByte_plain (hiByte a), hexOfByte_plain (loByte a)⟩⟩⟩

/-- A separator in front of text is dropped (R131). -/
theorem tokensOf_cons_separator {ch : Char} (h : isSeparator ch = true) (text : List Char) : tokensOf (ch :: text) = tokensOf text := by
  cases text with
  | nil => simp [tokensOf, h]
  | cons next rest => exact tokensOf_sep ch next rest h

/-- The canonical operand list is the operands' tokens (R131, R143). -/
theorem tokensOf_operandsText (ops : List Operand) : tokensOf (operandsText ops) = ops.map operandText := by
  fun_induction operandsText ops with
  | case1 => rfl
  | case2 op => exact tokensOf_plain_end _ (isToken_operandText op)
  | case3 op ops hne ih =>
    rw [List.append_assoc, List.cons_append, tokensOf_plain _ _ _ (isToken_operandText op) (by decide),
      tokensOf_cons_separator (by decide), List.cons_append, List.nil_append, tokensOf_cons_separator (by decide), ih, List.map_cons]

theorem operandsText_no_comment (ops : List Operand) : ∀ ch ∈ operandsText ops, ch ≠ ';' := by
  have hop : ∀ op, ∀ ch ∈ operandText op, ch ≠ ';' := fun op ch h => ((isToken_operandText op).2 ch h).2
  fun_induction operandsText ops with
  | case1 => exact nofun
  | case2 op => exact hop op
  | case3 op ops hne ih =>
    exact List.forall_mem_append.2 ⟨List.forall_mem_append.2 ⟨hop op, by simp⟩, ih⟩

section
variable {mnemonic : List Char} (hm : IsToken mnemonic) (ops : List Operand)
include hm

/-- A canonical line has no comment to strip (R130). -/
theorem stripComment_statementText : stripComment (statementText mnemonic ops) = statementText mnemonic ops := by
  refine List.takeWhile_eq_self_iff.2 fun ch hch => decide_eq_true ?_
  rcases List.mem_append.1 hch with hin | hin
  · exact (hm.2 ch hin).2
  · split at hin
    · cases hin
    · exact List.forall_mem_cons.2 ⟨by decide, operandsText_no_comment ops⟩ ch hin

/-- Its first character is no white space, so it is not skipped (R130). -/
theorem statementText_not_blank : (statementText mnemonic ops).all Char.isWhitespace = false := by
  obtain ⟨hne, hplain⟩ := hm
  obtain ⟨ch, rest, rfl⟩ := List.exists_cons_of_ne_nil hne
  obtain ⟨hsep, -⟩ := hplain ch (by simp)
  obtain ⟨hspace, -⟩ := Bool.or_eq_false_iff.1 hsep
  simp [statementText, hspace]

/-- Its tokens are the mnemonic and the operands' (R131). -/
theorem tokensOf_statementText : tokensOf (statementText mnemonic ops) = mnemonic :: ops.map operandText := by
  unfold statementText
  split
  case isTrue hnil => rw [hnil, List.append_nil, tokensOf_plain_end _ hm, List.map_nil]
  case isFalse =>
    rw [tokensOf_plain _ _ _ hm (by decide), tokensOf_cons_separator (by decide), tokensOf_operandsText]

/-- A canonical line is assembled as the statement it spells (R130, R143). -/
theorem assembleLine_statementText (t : SyntaxTable) (line : Nat) (st : AsmState) :
    assembleLine t line st (statementText mnemonic ops) =
      assembleStatement t (fun kind => ⟨kind, line, mnemonic :: ops.map operandText⟩) st mnemonic (ops.map operandText) := by
  simp only [assembleLine, stripComment_statementText hm, statementText_not_blank hm, tokensOf_statementText hm, Bool.false_eq_true,
    if_false]

end

/-- Canonical tokens parse under their own signature as their own operands (R143). -/
theorem parseOperands_operandText_self (ops : List Operand) :
    parseOperands (ops.map Operand.type) (ops.map operandText) = some ops := by
  rw [parseOperands_operandText, if_pos rfl]

/-- Settles O58: what each directive does is said once for all operands that parse, and the canonical line's operands parse. -/
theorem directivesAndOverflow : Obligations.DirectivesAndOverflow := by
  intro t err st hwf
  have hwrite : ∀ (a : Word) (v : Byte), (st.image.write a.toNat v).read a.toNat = v ∧
      ∀ b, b ≠ a.toNat → (st.image.write a.toNat v).read b = st.image.read b := fun a v =>
    ⟨Memory.read_write_same hwf _ v, fun b hb => Memory.read_write_other _ hb v⟩
  refine ⟨fun tokens a h => assembleStatement_text h, fun tokens a v h => ⟨_, assembleStatement_byte h, hwrite a v⟩,
    fun line a v => ⟨?_, _, ?_, hwrite a v⟩, fun bytes h => emit_of_lt h, fun mnemonic tokens bytes ht hb h => ?_⟩
  · exact (assembleLine_statementText isToken_directive.1 [.address a] t line st).trans
      (assembleStatement_text (parseOperands_operandText_self [.address a]))
  · exact (assembleLine_statementText isToken_directive.2 [.address a, .value v] t line st).trans
      (assembleStatement_byte (parseOperands_operandText_self [.address a, .value v]))
  · rw [assembleStatement_matched ht hb h]
    split
    case isTrue hle =>
      exact ⟨_, emit_of_le hle, fun k hk => Memory.read_writeBytes hwf _ bytes k hk, fun b hout => Memory.read_writeBytes_other _ bytes hout⟩
    case isFalse hgt => exact emit_of_lt (Nat.not_le.1 hgt)

/-! ## Assembling the canonical text -/

/-- The canonical operands of an instruction match an entry of its own form, and give its encoding under that entry's opcode (R138, R143). -/
theorem matchVariant_canonical {t : SyntaxTable} {i : Instr}
    (h : ∃ row ∈ t, row.mnemonic = i.mnemonic ∧ row.signature = i.signature) :
    ∃ row ∈ t, row.mnemonic = i.mnemonic ∧ row.signature = i.signature ∧
      matchVariant (variantsOf t i.mnemonic.toList) (i.operands.map operandText) = some (encodeWith row.opcode i) := by
  obtain ⟨hmatched, hnone⟩ := instructionMatching t i.mnemonic.toList (i.operands.map operandText)
  cases hbytes : matchVariant (variantsOf t i.mnemonic.toList) (i.operands.map operandText) with
  | none =>
    obtain ⟨row, hrow, hm, hs⟩ := h
    have hfail := hnone.1 hbytes row hrow (by rw [hm])
    rw [hs, Instr.signature, parseOperands_operandText_self] at hfail
    cases hfail
  | some bytes =>
    obtain ⟨row, hrow, ops, hm, hops, hrowBytes, -⟩ := hmatched bytes hbytes
    rw [parseOperands_operandText] at hops
    split at hops
    case isTrue hs =>
      cases hops
      exact ⟨row, hrow, String.toList_inj.1 hm, hs, congrArg some hrowBytes⟩
    case isFalse => cases hops

/-- Bytes written in a row are read back as a list. -/
theorem Memory.map_read_writeBytes {m : Memory} (hwf : m.wf) (a : Nat) (bytes : List Byte) :
    ((List.range bytes.length).map fun k => (m.writeBytes a bytes).read (a + k)) = bytes := by
  refine List.ext_getElem (by simp) fun k _ hk => ?_
  rw [List.getElem_map, List.getElem_range, Memory.read_writeBytes hwf a bytes k hk]

/-- Settles O54: the entry that matches has the instruction's form, so its bytes are an encoding, which the decoder inverts (`decodeOfEncode`). -/
theorem assembleThenDecode : Obligations.AssembleThenDecode := by
  rintro p i line st ⟨htable, -, -⟩ hwf himage hform hroom
  obtain ⟨row, hrow, hm, hs, hmatch⟩ := matchVariant_canonical hform
  obtain ⟨ht, hb⟩ := mnemonic_ne_directive i
  have hlen : (encodeWith row.opcode i).length = i.length := encodeWith_length _ i
  have hdecode := decodeOfEncode p row.opcode row i [] (lookupOpcode_of_mem _ htable row hrow) hm hs hwf
  rw [List.append_nil] at hdecode
  refine ⟨⟨st.cursor + i.length, st.image.writeBytes st.cursor (encodeWith row.opcode i)⟩, ?_, rfl, ?_, fun a ha => ?_⟩
  · rw [canonicalText_eq, assembleLine_statementText (isToken_mnemonic i), assembleStatement_matched ht hb hmatch,
      emit_of_le (hlen.symm ▸ hroom), hlen]
  · rw [← hlen, Memory.map_read_writeBytes himage]
    exact hdecode
  · exact Memory.read_writeBytes_other _ _ (hlen.symm ▸ ha)

end Sys2Proof.Machine
end

section
/-!
When a step is taken, what a longer fetch decodes to, and the conservative settings of the parameters (O27, O29, O32).
-/

namespace Sys2Proof

/-! ## Bytes an entry does not ask for -/

/-- The decoder reads the bytes its entry asks for and nothing behind them (R105, R163). -/
theorem decode_append {p : Config} {op : Byte} {bytes : List Byte} (hlen : entryLength p op ≤ (op :: bytes).length) (more : List Byte) :
    decode p (op :: bytes ++ more) = decode p (op :: bytes) := by
  cases hrow : lookupOpcode p.table op with
  | none => exact (decode_of_lookup_none hrow _).trans (decode_of_lookup_none hrow _).symm
  | some row =>
    rw [entryLength_of_lookup hrow, List.length_cons, Nat.add_comm 1] at hlen
    simp only [List.cons_append, decode, hrow, loadOperands_append _ more 0 (Nat.le_of_succ_le_succ hlen)]

/-- Where no byte is left, the first slot of any type is missing (R164, R169). -/
theorem loadOperands_nil {sig : Signature} (h : sig ≠ []) (bound : Option Nat) (last : Nat) :
    loadOperands bound sig [] last = .error (.bytesExhausted, last) := by
  cases sig with
  | nil => exact absurd rfl h
  | cons t sig => cases t <;> rfl

end Sys2Proof

namespace Sys2Proof.Machine

/-! ## Longer fetches -/

/-- A longer fetch differs from a shorter one only where that one read all it was asked for: a fetch cut short at 0xFFFF stays so (R169). -/
theorem State.fetchBytes_length_or_eq (s : State) {n m : Nat} (h : n ≤ m) (a : Word) :
    (s.fetchBytes n a).length = n ∨ s.fetchBytes m a = s.fetchBytes n a := by
  induction n generalizing m a with
  | zero => exact .inl rfl
  | succ n ih =>
    obtain ⟨m, rfl⟩ := Nat.exists_eq_add_one_of_ne_zero (Nat.ne_zero_of_lt h)
    simp only [State.fetchBytes_succ]
    by_cases hend : a = 0xFFFF ∧ s.cfg.pcWrap = .fault
    · exact .inr (by rw [if_pos hend, if_pos hend])
    · rw [if_neg hend, if_neg hend]
      exact (ih (Nat.le_of_succ_le_succ h) (a + 1)).imp (congrArg (· + 1)) (congrArg (s.romRead a :: ·))

/-- A fetch of more bytes than the entry asks for decodes to what the instruction's own bytes decode to. -/
theorem State.decode_fetchBytes {s : State} {n : Nat} (h : entryLength s.cfg (s.romRead s.pc) ≤ n) :
    decode s.cfg (s.fetchBytes n s.pc) = s.decodeNext := by
  obtain hfull | hcut := s.fetchBytes_length_or_eq h s.pc
  · obtain ⟨more, hmore⟩ := s.fetchBytes_prefix h s.pc
    obtain ⟨slots, hslots⟩ := s.instrBytes_eq
    rw [State.decodeNext, hslots]
    rw [State.instrBytes] at hslots
    rw [hslots] at hfull hmore
    rw [hmore, decode_append hfull.ge]
  · rw [hcut]
    rfl

/-- Settles O27: the bytes fetched decode to what the step decodes, and each outcome of the decoder is a branch of the step. -/
theorem stepRunsTheDecodedInstruction : Obligations.StepRunsTheDecodedInstruction := by
  intro s n hh he hn
  rw [State.decode_fetchBytes hn]
  exact ⟨fun i => step_of_decodeNext_instr hh he, fun why last => step_of_decodeNext_reject hh he⟩

/-! ## When a step is taken -/

theorem State.stopReason_eq_stopped {s : State} : s.stopReason = some .stopped ↔ s.h = false ∧ s.err ≠ none := by
  unfold State.stopReason
  cases s.h <;> cases s.err <;> simp

/-- Settles O29: a step that answers a next state started from a running core, and a refusal has the core's own reason. -/
theorem stepIsEnabledExactlyWhenRunning : Obligations.StepIsEnabledExactlyWhenRunning := by
  intro s
  refine ⟨⟨fun ⟨t, h⟩ => ?_, fun ⟨hh, he⟩ => step_next_of_running hh he⟩, fun hh => ?_, fun hh he => ?_⟩
  · obtain ⟨hh, he, -⟩ := step_cases h
    exact ⟨hh, he⟩
  · exact step_refused_iff.2 (State.stopReason_eq_halted.2 hh)
  · exact step_refused_iff.2 (State.stopReason_eq_stopped.2 ⟨hh, he⟩)

/-! ## `PC_WRAP = fault` -/

/-- Under `PC_WRAP = fault` increments fail exactly where they reach past 0xFFFF (R169). -/
theorem State.not_pcFits_iff {s : State} (hfault : s.cfg.pcWrap = .fault) {k : Nat} :
    ¬ s.pcFits k = true ↔ romSize ≤ s.pc.toNat + k := by
  simp [State.pcFits_iff, hfault]

theorem advance_of_not_fits {n : Nat} {s : State} (h : ¬ s.pcFits n = true) :
    advance n s = .next (s.enterError .pcWrap 0xFFFF) :=
  if_neg h

/-- At 0xFFFF the opcode byte is the only one fetched (R169). -/
theorem State.instrBytes_at_end {s : State} (hfault : s.cfg.pcWrap = .fault) (hpc : s.pc = 0xFFFF) {row : TableRow}
    (hrow : lookupOpcode s.cfg.table (s.romRead s.pc) = some row) : s.instrBytes = [s.romRead s.pc] := by
  rw [State.instrBytes_of_lookup hrow, Nat.add_comm 1, State.fetchBytes_succ, if_pos ⟨hpc, hfault⟩, List.tail_cons]

/-- An entry with an operand slot has none of its slots at 0xFFFF, so it fails before any effect (R169). -/
theorem step_slots_at_end {s : State} (hh : s.h = false) (he : s.err = none) (hfault : s.cfg.pcWrap = .fault) (hpc : s.pc = 0xFFFF)
    {row : TableRow} (hrow : lookupOpcode s.cfg.table (s.romRead s.pc) = some row) (hsig : row.signature ≠ []) :
    step s = .next (errorState s .pcWrap 0xFFFF) := by
  have hdecode : s.decodeNext = .reject .bytesExhausted 0 := by
    rw [State.decodeNext, State.instrBytes_at_end hfault hpc hrow, decode_of_loadOperands_error hrow (loadOperands_nil hsig _ 0)]
  rw [step_of_decodeNext_reject hh he hdecode, hpc, BitVec.add_zero]
  rfl

/-- NOP is complete at 0xFFFF, and its advance fails (R169, R190). -/
theorem step_nop_at_end {s : State} (hh : s.h = false) (he : s.err = none) (hfault : s.cfg.pcWrap = .fault) (hpc : s.pc = 0xFFFF)
    {row : TableRow} (hrow : lookupOpcode s.cfg.table (s.romRead s.pc) = some row) (hm : row.mnemonic = "NOP")
    (hsig : row.signature = []) : step s = .next (errorState s .pcWrap 0xFFFF) := by
  have hdecode : s.decodeNext = .instr .nop := by
    rw [State.decodeNext, State.instrBytes_at_end hfault hpc hrow]
    exact decode_eq_instr_iff.2 ⟨row, hrow, hm, by rw [hsig]; rfl⟩
  have hend : ¬ s.pcFits 1 = true := (State.not_pcFits_iff hfault).2 (by rw [hpc]; decide)
  exact (step_of_decodeNext_instr hh he hdecode).trans (advance_of_not_fits hend)

/-- MOV `rd, imm8` at 0xFFFD has its operands, the last at 0xFFFF, so it makes its write and only its advance fails (R169, R251). -/
theorem exec_movImm_to_end {s : State} (hfault : s.cfg.pcWrap = .fault) (hpc : s.pc = 0xFFFD) (rd : Reg) (imm : Byte) :
    exec (.movImm rd imm) s = .next ((s.setReg rd imm).enterError .pcWrap 0xFFFF) := by
  have hslots : s.pcFits 2 = true := (s.pcFits_iff 2).2 (.inr (by rw [hpc]; decide))
  have hend : ¬ (s.setReg rd imm).pcFits 3 = true := (State.not_pcFits_iff (s := s) hfault).2 (by rw [hpc]; decide)
  exact (afterOperands_of_fits hslots _).trans (advance_of_not_fits hend)

/-! ## `JUMP_RAM_CHECK = true` and `INC_ZERO_MODE = result` -/

/-- Where a JUMP target is checked, the check is that of a RAM address (R166). -/
theorem jumpTarget_of_check {s : State} (hcheck : s.cfg.jumpRamCheck = true) (a : Word) (k : Nat)
    (body : Host.Outcome State Fault Refusal) : jumpTarget a k s body = inRam a k s body :=
  if_pos hcheck

/-- A checked JUMP goes to a target in RAM's range, and fails at the high byte of any other (R166, R191). -/
theorem exec_jump_of_check {s : State} (hfits : s.pcFits 2 = true) (hcheck : s.cfg.jumpRamCheck = true) (a : Word) :
    exec (.jump a) s =
      .next (if a.toNat < s.cfg.ramSize then s.setPc a else s.enterError .operandRange (s.pc + 2)) := by
  have hexec : exec (.jump a) s = inRam a 2 s (.next (s.setPc a)) :=
    (afterOperands_of_fits hfits _).trans (jumpTarget_of_check hcheck a 2 _)
  rw [hexec]
  split
  case isTrue hlt => exact inRam_of_lt hlt 2 _
  case isFalse hge => exact inRam_of_le (Nat.not_lt.1 hge) 2 _

/-- Adding 1 carries out of the byte 0xFF only (R230, R232). -/
theorem add8_one (v : Byte) : add8 v 1 = (v + 1, decide (v = 0xFF)) := by
  have hlt := v.isLt
  have hcarry : 255 < v.toNat + (1 : Byte).toNat ↔ v = 0xFF := by
    rw [BitVec.toNat_eq, show (1 : Byte).toNat = 1 from rfl, show (0xFF : Byte).toNat = 255 from rfl]
    omega
  rw [add8_eq, decide_eq_decide.2 hcarry]

/-- INC completes with the incremented byte, `Z` as `INC_ZERO_MODE` says, and `C` where the byte was 0xFF (R232). -/
theorem exec_inc_of_fits {s : State} (hfits : s.pcFits 2 = true) (rd : Reg) :
    exec (.inc rd) s = .next ((((s.setReg rd (s.reg rd + 1)).setZ (incZero s.cfg.incZeroMode rd (s.reg rd + 1))).setC
      (decide (s.reg rd = 0xFF))).setPc (s.pc + 2)) := by
  simp only [exec, execInc, add8_one]
  exact (afterOperands_of_fits (State.pcFits_mono hfits (by decide)) _).trans (advance_of_fits hfits)

/-- Settles O32: one lemma for each setting, and for `PC_WRAP = fault` one for each place where the increment fails. -/
theorem conservativeParameterReadings : Obligations.ConservativeParameterReadings := by
  refine ⟨fun s row hh he hfault hpc hrow hform => ?_, fun rd imm s hfault hpc => ?_, fun a s hfits hcheck => ?_,
    fun rd s hfits hmode => ?_⟩
  · rw [← hpc] at hrow
    obtain hsig | ⟨hm, hsig⟩ := hform
    · exact step_slots_at_end hh he hfault hpc hrow hsig
    · exact step_nop_at_end hh he hfault hpc hrow hm hsig
  · exact exec_movImm_to_end hfault hpc rd imm
  · exact exec_jump_of_check hfits hcheck a
  · rw [exec_inc_of_fits hfits, hmode]
    rfl

end Sys2Proof.Machine
end

section
/-!
The control instructions (O1, O2, O3, O53): every instruction is encoded as its own bytes, so a rule's encoding part is read off the instruction; and a
state that steps to itself is on no run that ends.
-/

namespace Sys2Proof

/-! ## The encoding part of an instruction rule -/

/-- The reference table binds the reference opcode of every form to that form (R113). -/
theorem binds_referenceOpcode (i : Instr) : Binds referenceConfig (referenceOpcode i) i.mnemonic i.signature := by
  cases i <;> exact ⟨_, rfl, rfl, rfl⟩

/-- Every instruction meets the encoding part of its rule with the bytes of its own operands (R106, R119). -/
theorem encodedAs_operandBytes (i : Instr) :
    EncodedAs i i.mnemonic i.signature (referenceOpcode i) (i.operands.flatMap Operand.bytes) := by
  refine ⟨rfl, binds_referenceOpcode i, ?_⟩
  rintro p op ⟨row, hrow, hm, hs⟩ hwf rest
  exact decodeOfEncode p op row i rest hrow hm hs hwf

/-- The slots of JUMP are its target's low byte and high byte (R104, R191). -/
theorem encodedAs_jump (lo hi : Byte) : EncodedAs (.jump (hi ++ lo)) "JUMP" [.address] 0x01 [lo, hi] := by
  have hslots : (Instr.jump (addressOfBytes lo hi)).operands.flatMap Operand.bytes = [lo, hi] := by
    simp [Instr.operands, Operand.bytes]
  exact hslots ▸ encodedAs_operandBytes (.jump (addressOfBytes lo hi))

end Sys2Proof

namespace Sys2Proof.Machine

/-! ## What the control instructions do -/

/-- Where a JUMP target is not checked, every target passes (R166). -/
theorem jumpTarget_of_no_check {s : State} (hcheck : s.cfg.jumpRamCheck = false) (a : Word) (k : Nat)
    (body : Host.Outcome State Fault Refusal) : jumpTarget a k s body = body :=
  if_neg (Bool.eq_false_iff.1 hcheck)

/-- An unchecked JUMP goes to any target, and nothing advances `pc` afterwards (R166, R191). -/
theorem exec_jump_of_no_check {s : State} (hfits : s.pcFits 2 = true) (hcheck : s.cfg.jumpRamCheck = false) (a : Word) :
    exec (.jump a) s = .next (s.setPc a) :=
  (afterOperands_of_fits hfits _).trans (jumpTarget_of_no_check hcheck a 2 _)

/-- Settles O1: NOP is its advance by one byte. -/
theorem nopRule : Obligations.NopRule :=
  ⟨encodedAs_operandBytes .nop, fun _ hfits => advance_of_fits hfits⟩

/-- Settles O2: the two operand increments succeed and the target is not checked, so the jump is made. -/
theorem jumpRule : Obligations.JumpRule :=
  ⟨encodedAs_jump, fun a _ hfits hcheck => exec_jump_of_no_check hfits hcheck a⟩

/-- Settles O3: HALT makes one write and does not advance. -/
theorem haltRule : Obligations.HaltRule :=
  ⟨encodedAs_operandBytes .halt, fun _ => rfl⟩

/-! ## A run that goes nowhere -/

@[simp] theorem State.setPc_self (s : State) : s.setPc s.pc = s := rfl

/-- A run from a state that steps to itself stays there, however long it is. -/
theorem run_eq_of_step_self {s t : State} (hself : step s = .next s) {k : Nat} (hrun : Host.Core.run core k s = .next t) :
    t = s := by
  induction k with
  | zero =>
    cases hrun
    rfl
  | succ k ih =>
    obtain ⟨s', hs, hrun⟩ := run_succ_eq_next.1 hrun
    cases hself.symm.trans hs
    exact ih hrun

/-- No step follows an end state, so a state that steps to itself is none and reaches none (R44, R352). -/
theorem not_endsIn_of_step_self {s : State} (hself : step s = .next s) (t : State) : ¬ EndsIn s t := by
  rintro ⟨k, hrun, hended⟩
  obtain rfl := run_eq_of_step_self hself hrun
  exact hended.step_ne_next t hself

/-- Settles O53: the JUMP puts `pc` where it is, so the step answers the state it started from. -/
theorem jumpToItselfNeverEnds : Obligations.JumpToItselfNeverEnds := by
  intro s hh he hcheck hfits hdecode
  have hself : step s = .next s := by
    rw [step_of_decodeNext_instr hh he hdecode, exec_jump_of_no_check hfits hcheck, State.setPc_self]
  exact ⟨hself, not_endsIn_of_step_self hself⟩

end Sys2Proof.Machine
end

section
/-!
The stack (O42, O43, O4, O5): a push and the pop after it restore the state but for dead stack entries, so any list of pushes does; and what PUSH
and POP do where the stack has room or an entry, and where it has not.
-/

namespace Sys2Proof.Machine

/-! ## The stack engine -/

theorem State.stackPush_of_lt {s : State} (h : s.sp.val < stackDepth) (v : Byte) :
    s.stackPush v = some { s with stk := s.stk.set s.sp.val v, sp := ⟨s.sp.val + 1, Nat.succ_lt_succ h⟩ } :=
  dif_pos h

theorem State.stackPop_of_pos {s : State} (h : 0 < s.sp.val) :
    s.stackPop = some (s.stk[s.sp.val - 1],
      { s with sp := ⟨s.sp.val - 1, Nat.lt_of_le_of_lt (Nat.sub_le _ _) s.sp.isLt⟩ }) :=
  dif_pos h

theorem SameButDeadStack.sp_eq {s t : State} (h : SameButDeadStack s t) : t.sp = s.sp := by
  obtain ⟨_, rfl, -⟩ := sameButDeadStack_iff.1 h
  rfl

theorem SameButDeadStack.refl (s : State) : SameButDeadStack s s := ⟨rfl, fun _ _ _ => rfl⟩

theorem SameButDeadStack.trans {s t u : State} (hst : SameButDeadStack s t) (htu : SameButDeadStack t u) :
    SameButDeadStack s u := by
  obtain ⟨_, rfl, hlive⟩ := sameButDeadStack_iff.1 hst
  obtain ⟨_, rfl, hlive'⟩ := sameButDeadStack_iff.1 htu
  exact ⟨rfl, fun k hk hlt => (hlive' k hk hlt).trans (hlive k hk hlt)⟩

/-- A push writes only the entry at `sp`, which the pop after it reads and leaves dead (R210, R211, R215). -/
theorem State.stackPop_of_stackPush {s t : State} {v : Byte} (h : s.stackPush v = some t) :
    ∃ u, t.stackPop = some (v, u) ∧ SameButDeadStack s u := by
  obtain ⟨hlt, rfl⟩ := State.stackPush_cases h
  refine ⟨{ s with stk := s.stk.set s.sp.val v }, ?_, rfl, fun k hk hlive => ?_⟩
  · simp [State.stackPop_of_pos]
  · exact Vector.getElem_set_ne hlt hk (Nat.ne_of_gt hlive)

/-- The same with other bytes in the entries that are dead after the push: the pop does not read them (R41). -/
theorem State.stackPop_after_stackPush {s t t' : State} {v : Byte} (h : s.stackPush v = some t) (hdead : SameButDeadStack t t') :
    ∃ u, t'.stackPop = some (v, u) ∧ SameButDeadStack s u := by
  obtain ⟨u, hpop, hu⟩ := State.stackPop_of_stackPush h
  have hrel := hdead.stackPop
  rw [hpop] at hrel
  generalize t'.stackPop = popped at hrel ⊢
  obtain ⟨rfl, hu'⟩ | _ := hrel
  exact ⟨_, rfl, hu.trans hu'⟩

/-! ## Lists of pushes and pops -/

/-- Pushes count entries (R215). -/
theorem sp_of_stackPushes {s t : State} {vs : List Byte} (h : vs.foldlM State.stackPush s = some t) :
    t.sp.val = s.sp.val + vs.length := by
  induction vs generalizing s with
  | nil =>
    cases h
    rfl
  | cons v vs ih =>
    obtain ⟨s', hpush, hrest⟩ := Option.bind_eq_some_iff.1 h
    obtain ⟨hlt, rfl⟩ := State.stackPush_cases hpush
    rw [ih hrest, List.length_cons, Nat.add_comm vs.length, ← Nat.add_assoc]

/-- Pushes succeed where there is room for all of them (R215). -/
theorem exists_stackPushes {s : State} {vs : List Byte} (h : s.sp.val + vs.length ≤ stackDepth) :
    ∃ t, vs.foldlM State.stackPush s = some t := by
  induction vs generalizing s with
  | nil => exact ⟨s, rfl⟩
  | cons v vs ih =>
    rw [List.length_cons] at h
    have hroom : s.sp.val < stackDepth := by omega
    rw [List.foldlM_cons, State.stackPush_of_lt hroom]
    exact ih (by rwa [Nat.add_assoc, Nat.add_comm 1])

/-- A pop that must give `v`. -/
def State.stackPopByte (s : State) (v : Byte) : Option State :=
  s.stackPop.bind fun r => if r.1 = v then some r.2 else none

theorem State.stackPopByte_of_stackPop {s u : State} {v : Byte} (h : s.stackPop = some (v, u)) : s.stackPopByte v = some u := by
  simp [State.stackPopByte, h]

/-- Pops undo pushes, the last first, but for the entries they leave dead. -/
theorem stackPops_of_stackPushes {s t : State} {vs : List Byte} (h : vs.foldlM State.stackPush s = some t) :
    ∃ u, vs.reverse.foldlM State.stackPopByte t = some u ∧ SameButDeadStack s u := by
  induction vs generalizing s with
  | nil =>
    cases h
    exact ⟨t, rfl, .refl t⟩
  | cons v vs ih =>
    obtain ⟨s', hpush, hrest⟩ := Option.bind_eq_some_iff.1 h
    obtain ⟨t', hpops, hdead⟩ := ih hrest
    obtain ⟨u, hpop, hu⟩ := State.stackPop_after_stackPush hpush hdead
    refine ⟨u, ?_, hu⟩
    rw [List.reverse_cons, List.foldlM_append, hpops]
    simpa using State.stackPopByte_of_stackPop hpop

/-- Settles O42: a pop undoes the push before it, and a 33rd entry would put `sp` past `STACK_DEPTH`. -/
theorem stackIsLifo : Obligations.StackIsLifo := by
  refine ⟨fun s v hlt => ?_, fun s vs hempty => ⟨fun hlen => ?_, fun hlen => ?_⟩, fun s => State.stackPop_eq_none.2⟩
  · have hpush := State.stackPush_of_lt hlt v
    obtain ⟨u, hpop, hu⟩ := State.stackPop_of_stackPush hpush
    exact ⟨_, u, hpush, hpop, hu.sp_eq⟩
  · obtain ⟨t, ht⟩ := exists_stackPushes (s := s) (vs := vs) (by rwa [hempty, Nat.zero_add])
    exact ⟨t, ht, by rw [sp_of_stackPushes ht, hempty, Nat.zero_add]⟩
  · refine Option.eq_none_iff_forall_ne_some.2 fun t ht => ?_
    have hsp : t.sp.val = 33 := by rw [sp_of_stackPushes ht, hempty, hlen]
    exact absurd t.sp.isLt (by rw [hsp]; decide)

/-- Settles O43: the pops restore the state but for dead entries, so `sp` too. -/
theorem popsReverseThePushes : Obligations.PopsReverseThePushes := by
  intro s t vs h
  obtain ⟨u, hpops, hu⟩ := stackPops_of_stackPushes h
  exact ⟨u, hpops, hu.sp_eq⟩

/-! ## PUSH and POP -/

/-- Where the first operand is a register, its slot is the first one read, and a byte of 8 or more ends the decode there (R102, R164). -/
theorem outOfRangeAt_first_slot (mnemonic : String) (sig : Signature) (slots : List Byte) {b : Byte} (h : 8 ≤ b.toNat) :
    OutOfRangeAt mnemonic (.register :: sig) (b :: slots) 1 := by
  rintro p op ⟨row, hrow, -, hs⟩ rest
  refine decode_of_loadOperands_error hrow ?_
  rw [hs]
  exact loadOperands_register_of_le h _ sig (slots ++ rest) 0

theorem exec_push_of_some {rs : Reg} {s t : State} (hfits : s.pcFits 2 = true) (h : s.stackPush (s.reg rs) = some t) :
    exec (.push rs) s = .next (t.setPc (s.pc + 2)) := by
  obtain ⟨_, rfl⟩ := State.stackPush_cases h
  refine (afterOperands_of_fits (State.pcFits_mono hfits (by decide)) _).trans ?_
  rw [h]
  exact advance_of_fits hfits

theorem exec_push_of_none {rs : Reg} {s : State} (hfits : s.pcFits 1 = true) (h : s.stackPush (s.reg rs) = none) :
    exec (.push rs) s = .next (s.enterError .stackOverflow (s.pc + 1)) := by
  refine (afterOperands_of_fits hfits _).trans ?_
  rw [h]
  rfl

theorem exec_pop_of_some {rd : Reg} {s t : State} {v : Byte} (hfits : s.pcFits 2 = true) (h : s.stackPop = some (v, t)) :
    exec (.pop rd) s = .next ((t.setReg rd v).setPc (s.pc + 2)) := by
  obtain ⟨_, -, rfl⟩ := State.stackPop_cases h
  refine (afterOperands_of_fits (State.pcFits_mono hfits (by decide)) _).trans ?_
  rw [h]
  exact advance_of_fits hfits

theorem exec_pop_of_none {rd : Reg} {s : State} (hfits : s.pcFits 1 = true) (h : s.stackPop = none) :
    exec (.pop rd) s = .next (s.enterError .stackUnderflow (s.pc + 1)) := by
  refine (afterOperands_of_fits hfits _).trans ?_
  rw [h]
  rfl

/-- Settles O4: the push has room and completes, or the stack is full and the error is entered. -/
theorem pushRule : Obligations.PushRule := by
  refine ⟨fun rs => encodedAs_operandBytes (.push rs), fun b hb => outOfRangeAt_first_slot _ [] [] hb,
    fun rs s hlt hfits => ?_, fun rs s hfull hfits => ?_⟩
  · exact exec_push_of_some hfits (State.stackPush_of_lt hlt (s.reg rs))
  · exact exec_push_of_none hfits (State.stackPush_eq_none.2 hfull)

/-- Settles O5: the pop has an entry and completes, or the stack is empty and the error is entered. -/
theorem popRule : Obligations.PopRule := by
  refine ⟨fun rd => encodedAs_operandBytes (.pop rd), fun b hb => outOfRangeAt_first_slot _ [] [] hb,
    fun rd s hpos hfits => ?_, fun rd s hempty hfits => ?_⟩
  · exact exec_pop_of_some hfits (State.stackPop_of_pos hpos)
  · exact exec_pop_of_none hfits (State.stackPop_eq_none.2 hempty)

end Sys2Proof.Machine
end

section
/-!
The ALU (O44, O6, O7, O8, O9): `add8` is addition of bytes with a carry, and an ALU instruction whose increments of `pc` succeed is its writes
followed by the advance.
-/

namespace Sys2Proof.Machine

/-! ## The ALU primitive -/

theorem add8_comm (a b : Byte) : add8 a b = add8 b a := by
  rw [add8_eq, add8_eq, BitVec.add_comm, Nat.add_comm]

/-- Adding 0 never carries out (R235). -/
theorem add8_zero (a : Byte) : add8 a 0 = (a, false) := by
  have hcarry : ¬ 255 < a.toNat + (0 : Byte).toNat := Nat.not_lt.2 (Nat.le_of_lt_succ a.isLt)
  rw [add8_eq, decide_eq_false hcarry]
  exact congrArg (·, false) (BitVec.add_zero a)

/-- Settles O44: the sum and the carry are those of `add8_eq`, and the examples are evaluated. -/
theorem addEightBits : Obligations.AddEightBits := by
  refine ⟨fun a b => ⟨?_, ?_, add8_comm a b, add8_zero a⟩, by decide, by decide, by decide, by decide⟩
  · rw [add8_eq]
    exact BitVec.toNat_add a b
  · rw [add8_eq]
    exact decide_eq_true_iff

/-! ## The second register slot -/

/-- Behind a legal register slot a second one is read, and a byte of 8 or more ends the decode there (R102, R164). -/
theorem outOfRangeAt_second_slot (mnemonic : String) (sig : Signature) (rd : Reg) (slots : List Byte) {b : Byte} (h : 8 ≤ b.toNat) :
    OutOfRangeAt mnemonic (.register :: .register :: sig) (registerByte rd :: b :: slots) 2 := by
  rintro p op ⟨row, hrow, -, hs⟩ rest
  refine decode_of_loadOperands_error hrow ?_
  rw [hs]
  refine (loadOperands_cons_bytes (op := .register rd) rfl (.register :: sig) (b :: slots ++ rest) 0).trans ?_
  rw [List.cons_append, loadOperands_register_of_le h]
  rfl

/-! ## What the ALU instructions do -/

/-- CLEAR completes with `rd` zeroed and `Z` set (R231). -/
theorem exec_clear_of_fits {s : State} (hfits : s.pcFits 2 = true) (rd : Reg) :
    exec (.clear rd) s = .next (((s.setReg rd 0x00).setZ true).setPc (s.pc + 2)) :=
  (afterOperands_of_fits (State.pcFits_mono hfits (by decide)) _).trans (advance_of_fits hfits)

/-- The part the two forms of ADD share: the sum is written back and `pc` moves past three bytes (R233, R234). -/
theorem writeSum_completes {s : State} (hfits : s.pcFits 3 = true) (rd : Reg) (a b : Byte) :
    afterOperands 2 s (advance 3 (s.writeSum rd (add8 a b))) =
      .next ((s.writeSum rd (a + b, decide (255 < a.toNat + b.toNat))).setPc (s.pc + 3)) := by
  rw [add8_eq]
  exact (afterOperands_of_fits (State.pcFits_mono hfits (by decide)) _).trans (advance_of_fits hfits)

/-- Settles O6: CLEAR completes with its two writes. -/
theorem clearRule : Obligations.ClearRule :=
  ⟨fun rd => encodedAs_operandBytes (.clear rd), fun _ hb => outOfRangeAt_first_slot _ [] [] hb,
    fun rd _ hfits => exec_clear_of_fits hfits rd⟩

/-- Settles O7: INC completes with the incremented byte, and under `INC_ZERO_MODE = index` its `Z` is that of the register index. -/
theorem incRule : Obligations.IncRule := by
  refine ⟨fun rd => encodedAs_operandBytes (.inc rd), fun _ hb => outOfRangeAt_first_slot _ [] [] hb, fun rd s hfits hmode => ?_⟩
  have hz : incZero .index rd (s.reg rd + 1) = decide (rd.val = 0) := decide_eq_decide.2 Fin.ext_iff
  rw [exec_inc_of_fits hfits, hmode, hz]
  rfl

/-- Settles O8: `rd`'s slot is read before that of `rs`, and the sum of the two registers is written back. -/
theorem addRegisterRule : Obligations.AddRegisterRule :=
  ⟨fun rd rs => encodedAs_operandBytes (.addReg rd rs), fun _ hb => outOfRangeAt_first_slot _ [.register] [] hb,
    fun rd _ hb => outOfRangeAt_second_slot _ [] rd [] hb,
    fun rd rs s hfits => writeSum_completes hfits rd (s.reg rd) (s.reg rs)⟩

/-- Settles O9: only `rd`'s slot is checked, and the sum of register and immediate is written back. -/
theorem addImmediateRule : Obligations.AddImmediateRule :=
  ⟨fun rd imm => encodedAs_operandBytes (.addImm rd imm), fun _ hb => outOfRangeAt_first_slot _ [.value] [] hb,
    fun rd imm s hfits => writeSum_completes hfits rd (s.reg rd) imm⟩

end Sys2Proof.Machine
end

section
/-!
The moves into a register (O10, O11): both forms of MOV read their operands, make one register write and advance by three bytes.
-/

namespace Sys2Proof.Machine

/-- The part the two forms of MOV share: the byte is written to `rd`, no flag is, and `pc` moves past three bytes (R250, R251). -/
theorem setReg_completes {s : State} (hfits : s.pcFits 3 = true) (rd : Reg) (v : Byte) :
    afterOperands 2 s (advance 3 (s.setReg rd v)) = .next ((s.setReg rd v).setPc (s.pc + 3)) :=
  (afterOperands_of_fits (State.pcFits_mono hfits (by decide)) _).trans (advance_of_fits hfits)

/-- Settles O10: `rd`'s slot is read before that of `rs`, and the byte of `rs` before the write is the one written to `rd`. -/
theorem moveRegisterRule : Obligations.MoveRegisterRule :=
  ⟨fun rd rs => encodedAs_operandBytes (.movReg rd rs), fun _ hb => outOfRangeAt_first_slot _ [.register] [] hb,
    fun rd _ hb => outOfRangeAt_second_slot _ [] rd [] hb,
    fun rd rs s hfits => setReg_completes hfits rd (s.reg rs)⟩

/-- Settles O11: only `rd`'s slot is checked, and the immediate is written to `rd`. -/
theorem moveImmediateRule : Obligations.MoveImmediateRule :=
  ⟨fun rd imm => encodedAs_operandBytes (.movImm rd imm), fun _ hb => outOfRangeAt_first_slot _ [.value] [] hb,
    fun rd imm _ hfits => setReg_completes hfits rd imm⟩

end Sys2Proof.Machine
end

section
/-!
The memory accesses (O12, O13, O14): an address operand is encoded as its low byte and its high byte, LOAD and STORE check it against `RAM_SIZE` where
its slots stand, and LPM never does.
-/

namespace Sys2Proof

/-! ## Encodings with an address operand -/

theorem addressOperand_bytes (lo hi : Byte) : (Operand.address (addressOfBytes lo hi)).bytes = [lo, hi] := by
  simp [Operand.bytes]

/-- The bytes of a register and then an address (R104, R105). -/
theorem registerAddress_bytes (r : Reg) (lo hi : Byte) :
    [Operand.register r, .address (addressOfBytes lo hi)].flatMap Operand.bytes = [registerByte r, lo, hi] :=
  congrArg (registerByte r :: ·) (addressOperand_bytes lo hi)

/-- The bytes of an address and then a register (R104, R105). -/
theorem addressRegister_bytes (lo hi : Byte) (r : Reg) :
    [Operand.address (addressOfBytes lo hi), .register r].flatMap Operand.bytes = [lo, hi, registerByte r] :=
  congrArg (· ++ [registerByte r]) (addressOperand_bytes lo hi)

/-- The encoding part of an instruction's rule, with the bytes of its operands written out (R106, R119). -/
theorem encodedAs_of_bytes {i : Instr} {slots : List Byte} (h : i.operands.flatMap Operand.bytes = slots) :
    EncodedAs i i.mnemonic i.signature (referenceOpcode i) slots :=
  h ▸ encodedAs_operandBytes i

/-! ## Slots that fail -/

/-- What ends the operand phase of a form ends the decode under every opcode byte bound to it (R114, R164). -/
theorem Binds.decode_of_error {p : Config} {op : Byte} {mnemonic : String} {sig : Signature} {bytes : List Byte}
    {why : DecodeReject} {last : Nat} (h : Binds p op mnemonic sig)
    (herror : loadOperands (addressBound p mnemonic sig) sig bytes 0 = .error (why, last)) :
    decode p (op :: bytes) = .reject why last := by
  obtain ⟨row, hrow, rfl, rfl⟩ := h
  exact decode_of_loadOperands_error hrow herror

/-- The address of a LOAD is a RAM address (R117, R166). -/
theorem addressBound_load (p : Config) : addressBound p "LOAD" [.register, .address] = some p.ramSize :=
  if_pos (.inl ⟨rfl, rfl⟩)

/-- The address of a STORE is a RAM address (R117, R166). -/
theorem addressBound_store (p : Config) : addressBound p "STORE" [.address, .register] = some p.ramSize :=
  if_pos (.inr (.inl ⟨rfl, rfl⟩))

/-- An address out of bound ends the operand phase at its high byte (R166). -/
theorem loadOperands_address_of_le {n : Nat} {lo hi : Byte} (h : n ≤ hi.toNat * 256 + lo.toNat) (sig : Signature)
    (bytes : List Byte) (last : Nat) :
    loadOperands (some n) (.address :: sig) (lo :: hi :: bytes) last = .error (.operandRange, last + 2) := by
  have hout : addressInBound (some n) (addressOfBytes lo hi) = false :=
    decide_eq_false (by rw [addressOfBytes_toNat]; exact Nat.not_lt.2 h)
  simp [loadOperands, hout]

/-- An in-bound operand is read, so what fails behind it is what fails (R164). -/
theorem loadOperands_error_behind {bound : Option Nat} {op : Operand} (hin : op.inBound bound = true) {sig : Signature}
    {bytes : List Byte} {last : Nat} {e : DecodeReject × Nat}
    (h : loadOperands bound sig bytes (last + op.type.slots) = .error e) :
    loadOperands bound (op.type :: sig) (op.bytes ++ bytes) last = .error e := by
  rw [loadOperands_cons_bytes hin, h]
  rfl

/-- The address of a LOAD is checked behind its register slot, at the fourth byte (R166, R271). -/
theorem decode_load_of_le {p : Config} {op lo hi : Byte} (hop : Binds p op "LOAD" [.register, .address])
    (h : p.ramSize ≤ hi.toNat * 256 + lo.toNat) (rd : Reg) (rest : List Byte) :
    decode p (op :: registerByte rd :: lo :: hi :: rest) = .reject .operandRange 3 :=
  hop.decode_of_error <| addressBound_load p ▸
    loadOperands_error_behind (op := .register rd) rfl (loadOperands_address_of_le h [] rest 1)

/-- The address of a STORE is checked before its register slot, at the third byte (R166, R272). -/
theorem decode_store_of_address_le {p : Config} {op lo hi : Byte} (hop : Binds p op "STORE" [.address, .register])
    (h : p.ramSize ≤ hi.toNat * 256 + lo.toNat) (rest : List Byte) :
    decode p (op :: lo :: hi :: rest) = .reject .operandRange 2 :=
  hop.decode_of_error <| addressBound_store p ▸ loadOperands_address_of_le h [.register] rest 0

/-- Behind an in-bound address the register slot of a STORE is read, at the fourth byte (R164, R272). -/
theorem decode_store_of_register_le {p : Config} {op lo hi b : Byte} (hop : Binds p op "STORE" [.address, .register])
    (h : hi.toNat * 256 + lo.toNat < p.ramSize) (hb : 8 ≤ b.toNat) (rest : List Byte) :
    decode p (op :: lo :: hi :: b :: rest) = .reject .operandRange 3 := by
  have hin : (Operand.address (addressOfBytes lo hi)).inBound (some p.ramSize) = true :=
    decide_eq_true (by rwa [addressOfBytes_toNat])
  have hslots := loadOperands_error_behind (last := 0) hin (loadOperands_register_of_le hb _ [] rest 2)
  rw [addressOperand_bytes] at hslots
  exact hop.decode_of_error (addressBound_store p ▸ hslots)

end Sys2Proof

namespace Sys2Proof.Machine

/-! ## The instruction rules -/

/-- LPM completes at every address with the ROM byte in `rd` (R270). -/
theorem exec_lpm_of_fits {s : State} (hfits : s.pcFits 4 = true) (rd : Reg) (a : Word) :
    exec (.lpm rd a) s = .next ((s.setReg rd (s.romRead a)).setPc (s.pc + 4)) :=
  (afterOperands_of_fits (State.pcFits_mono hfits (by decide)) _).trans (advance_of_fits hfits)

/-- Settles O12: only `rd`'s slot is checked, and LPM completes at every address. -/
theorem lpmRule : Obligations.LpmRule :=
  ⟨fun rd lo hi => encodedAs_of_bytes (i := .lpm rd (addressOfBytes lo hi)) (registerAddress_bytes rd lo hi),
    fun _ hb => outOfRangeAt_first_slot _ [.address] [] hb,
    fun rd a _ hfits => exec_lpm_of_fits hfits rd a⟩

/-- Settles O13: `rd`'s slot is read before the address, and a LOAD in bounds completes. -/
theorem loadRule : Obligations.LoadRule :=
  ⟨fun rd lo hi => encodedAs_of_bytes (i := .load rd (addressOfBytes lo hi)) (registerAddress_bytes rd lo hi),
    fun _ hb => outOfRangeAt_first_slot _ [.address] [] hb,
    fun _ _ rd _ _ rest hop h => decode_load_of_le hop h rd rest,
    fun rd _ _ hfits ha => exec_load_of_lt hfits ha rd⟩

/-- Settles O14: the address is read before `rs`'s slot, and a STORE in bounds completes with one RAM byte written. -/
theorem storeRule : Obligations.StoreRule := by
  refine ⟨fun lo hi rs => encodedAs_of_bytes (i := .store (addressOfBytes lo hi) rs) (addressRegister_bytes lo hi rs),
    fun _ _ _ _ rest hop h => decode_store_of_address_le hop h rest,
    fun _ _ _ _ _ rest hop h hb => decode_store_of_register_le hop h hb rest, fun a rs s hfits ha hwf => ?_⟩
  have hread := State.ramRead_ramWrite hwf a (v := s.reg rs)
  exact ⟨_, exec_store_of_lt hfits ha rs, rfl, (hread a).trans (if_pos rfl), fun b hne => (hread b).trans (if_neg hne)⟩

end Sys2Proof.Machine
end

section
/-!
Precise errors (O30, R303). The rejections of the decoder and the errors of a meaning before its writes are the error state itself; what is left is
`PcWrapError` at the final advance, which takes the writes from the same meaning under `PC_WRAP = wrap`.
-/

namespace Sys2Proof.Machine

/-- A meaning that ends a running core's step in an error does not halt it (R33, R194). -/
theorem exec_h_of_error {i : Instr} {s t : State} (h : exec i s = .next t) (hrun : s.h = false) (hnone : s.err = none)
    (herr : t.err ≠ none) : t.h = false :=
  Bool.eq_false_iff.2 fun hhalt => herr ((exec_err_of_halts h hrun hhalt).trans hnone)

/-- The error of a meaning is the error state, or `PcWrapError` at the final advance with the effects the instruction completes with under
`PC_WRAP = wrap` (R169, R171, R303). -/
theorem exec_error_precise {i : Instr} {s t : State} (h : exec i s = .next t) (hnone : s.err = none) (herr : t.err ≠ none) :
    ∃ k : ErrKind, t.err = some ⟨k, s.pc, s.romRead s.pc⟩ ∧
      (t = errorState s k t.pc ∨
        (k = .pcWrap ∧ s.cfg.pcWrap = .fault ∧
          ∃ u : State, exec i s.wrapping = .next u ∧ u.err = none ∧
            t = { u with cfg := s.cfg, pc := 0xFFFF, err := t.err })) := by
  obtain ⟨-, -, -, -, -, -, hkept | ⟨k, ht, -⟩ | ⟨hlatch, hfault, -, u, hu, hukept, ht⟩⟩ := exec_cases h
  · exact absurd (hkept.trans hnone) herr
  · exact ⟨k, by rw [ht, State.enterError_err], .inl ht⟩
  · exact ⟨.pcWrap, hlatch, .inr ⟨rfl, hfault, u, hu, hukept.trans hnone, by rw [hlatch]; exact ht⟩⟩

/-- Settles O30: a rejection is the error state (`step_cases`), and the error of a meaning is precise (`exec_error_precise`). -/
theorem errorsArePrecise : Obligations.ErrorsArePrecise := by
  intro s t h herr
  obtain ⟨hrun, hnone, ⟨i, hdecode, hexec⟩ | ⟨why, last, -, rfl⟩⟩ := step_cases h
  · have hh := exec_h_of_error hexec hrun hnone herr
    obtain ⟨k, hlatch, hstate | ⟨hk, hfault, u, hu, huerr, ht⟩⟩ := exec_error_precise hexec hnone herr
    · exact ⟨k, hlatch, hh, .inl hstate⟩
    · exact ⟨k, hlatch, hh, .inr ⟨hk, hfault, i, u, hdecode, hu, huerr, ht⟩⟩
  · exact ⟨DecodeReject.errKind why, rfl, hrun, .inl rfl⟩

end Sys2Proof.Machine
end

section
/-!
Reset (O47, R340): the constructed core it leaves, register by register, and that this core runs from address 0x0000.
-/

namespace Sys2Proof.Machine

/-- Reset puts `REG_RESET` into every register (R13, R42). -/
theorem resetCore_reg (s : State) (r : Reg) : (resetCore s).x[r.val] = s.cfg.regReset :=
  Vector.getElem_replicate _

/-- The opcode fetched first after reset is the byte of the unchanged ROM at 0x0000 (R340). -/
theorem resetCore_instrBytes (s : State) : ∃ rest, (resetCore s).instrBytes = s.romRead 0x0000 :: rest := by
  have hrom : (resetCore s).romRead (resetCore s).pc = s.romRead 0x0000 := State.romRead_congr _ _ rfl _
  rw [← hrom]
  exact (resetCore s).instrBytes_eq

/-- Settles O47: reset constructs a core with neither `H` nor an error, so its first step is enabled. -/
theorem resetRule : Obligations.ResetRule := by
  intro s
  have hstep : ∃ t, step (resetCore s) = .next t := step_next_of_running rfl rfl
  exact ⟨rfl, rfl, resetCore_reg s, rfl, rfl, rfl, rfl, rfl, rfl, rfl, rfl, resetCore_instrBytes s, hstep⟩

end Sys2Proof.Machine
end
